-- ==== Sys2Proof/Word.lean ====
section
/-! DEFINITION. The bit vectors of the GFU: field elements, command words, read-map addresses. -/

namespace Sys2Proof

/-- A byte: a field element, a read-map byte, an 8-bit register (`00_scope.md` R6 `ELEM_BITS`, R10). Bit i of a field
element is the coefficient of z^i (R13). -/
abbrev Byte := BitVec 8

/-- A command word (`00_scope.md` R6 `CMD_BITS`, `30_encoding.md` R70). -/
abbrev Word := BitVec 32

/-- A host address of the read map (`00_scope.md` R6 `ADDR_BITS`, `20_memory.md` R52): arithmetic on it wraps modulo
4096. -/
abbrev Addr := BitVec 12

end Sys2Proof
end

