-- ==== Sys2Proof/Config.lean ====
section
/-! DEFINITION. The parameters of the GFU (`00_scope.md` R6). The counts 16 (`NE`, `NP`, `NS`) stand in the types of
`Syntax` and `State`; the widths stand in `Word`. -/

namespace Sys2Proof

/-- `FIELD_POLY`, the degree-8 reduction polynomial, bit i the coefficient of z^i (`00_scope.md` R6, R7, R13): the
default of the argument `fieldPoly` that every multiplication takes and that `execWith` and `stepWith` hand down
(`92_eei_decisions.md` D1). PRESUMED, unsafe (log entry 1): the spec gives this default from general knowledge. -/
def Config.fieldPoly : BitVec 9 := 0x11D#9

/-- `LMAX`, the maximum number of coefficients of a polynomial register or share payload (`00_scope.md` R6). -/
abbrev Config.lMax : Nat := 64

/-- `T_MIN`, the smallest legal threshold (`00_scope.md` R6). -/
abbrev Config.tMin : Nat := 1

/-- `T_MAX`, the largest legal threshold (`00_scope.md` R6). -/
abbrev Config.tMax : Nat := 16

/-- `X_MIN`, the smallest legal share index (`00_scope.md` R6). -/
abbrev Config.xMin : Nat := 1

/-- `X_MAX`, the largest legal share index (`00_scope.md` R6). -/
abbrev Config.xMax : Nat := 16

/-- The read-map address of the command port (`20_memory.md` R51). -/
def Config.commandPort : Addr := 0xFFC#12

end Sys2Proof
end

