-- ==== Sys2Proof/Syntax.lean ====
section
/-! DEFINITION. The 15 commands of the GFU (`30_encoding.md` R75) and the actions of its host (`20_memory.md` R50). -/

namespace Sys2Proof

/-- The number of an E register, 0..15; every value is legal (`10_state.md` R21, `30_encoding.md` R72). -/
abbrev EReg := Fin 16

/-- The number of a P register, 0..15; every value is legal (`10_state.md` R25, `30_encoding.md` R72). -/
abbrev PReg := Fin 16

/-- The number of a share slot, 0..15; every value is legal (`10_state.md` R29, `30_encoding.md` R72). -/
abbrev SlotNum := Fin 16

/-- A command: one constructor per row of the opcode map (`30_encoding.md` R75), operands in the assembler's order,
destination first (R84). Which file a number indexes is the command's choice (R72). -/
inductive Instr where
  /-- `NOP` (`43_system.md` R170). -/
  | nop
  /-- `CLRF` (`43_system.md` R171). -/
  | clrf
  /-- `RST` (`43_system.md` R172). -/
  | rst
  /-- `ELI ed, imm8` (`40_field.md` R104). -/
  | eli (d : EReg) (imm : Byte)
  /-- `EADD ed, ea, eb` (`40_field.md` R105). -/
  | eadd (d a b : EReg)
  /-- `EMUL ed, ea, eb` (`40_field.md` R106). -/
  | emul (d a b : EReg)
  /-- `EINV ed, ea` (`40_field.md` R107). -/
  | einv (d a : EReg)
  /-- `PCLR pd, len` (`41_poly.md` R121). -/
  | pclr (d : PReg) (imm : Byte)
  /-- `PSB pd, idx, imm8` (`41_poly.md` R122). -/
  | psb (d : PReg) (m imm : Byte)
  /-- `PADD pd, pa, pb` (`41_poly.md` R123). -/
  | padd (d a b : PReg)
  /-- `PSCL pd, pa, eb` (`41_poly.md` R124). -/
  | pscl (d a : PReg) (b : EReg)
  /-- `SLD sd, pa, x` (`42_shamir.md` R141). -/
  | sld (d : SlotNum) (a : PReg) (imm : Byte)
  /-- `SCLR sd` (`42_shamir.md` R142). -/
  | sclr (d : SlotNum)
  /-- `SLC ed, sa` (`42_shamir.md` R151). -/
  | slc (d : EReg) (a : SlotNum)
  /-- `SCOMB pd, t` (`42_shamir.md` R152). -/
  | scomb (d : PReg) (imm : Byte)
deriving DecidableEq, Repr

/-- The widths of a host read: 1, 2 or 4 bytes (`20_memory.md` R52). -/
inductive ReadWidth where
  | one
  | two
  | four
deriving DecidableEq, Repr

/-- The number of bytes a host read of this width moves (`20_memory.md` R52). -/
def ReadWidth.bytes : ReadWidth → Nat
  | .one => 1
  | .two => 2
  | .four => 4

/-- What the host can do (`20_memory.md` R50 to R52). -/
inductive HostAction where
  /-- `HostCmd(w)`: the word `w` is handed to the unit (`20_memory.md` R51). -/
  | cmd (w : Word)
  /-- `MemRead(addr, n)` (`20_memory.md` R52). -/
  | read (addr : Addr) (n : ReadWidth)
  /-- `MemWrite(addr, n, v)` on a byte-addressed bus (`20_memory.md` R51): the n bytes of v, the one at the lowest address
  first (log entry 15). -/
  | write (addr : Addr) (data : List Byte)
deriving DecidableEq, Repr

end Sys2Proof
end

