-- ==== Sys2Proof/WellFormed.lean ====
section
/-! DEFINITION. Which command words are well formed: the opcode map as a list of rows (`30_encoding.md` R75), and the
test of R71 and R80 against it. A term of `Instr` needs no further check: its types bound every field, since "all 16
values are legal in every register field" (R72), and an immediate outside its legal range is a fault of the command,
not an ill-formed command (R73). -/

namespace Sys2Proof

/-- One row of the opcode map: a mnemonic, the fixed bits' value and the mask of fixed bits (`30_encoding.md` R75). -/
structure OpcodeRow where
  mnemonic : String
  value : Word
  mask : Word
deriving DecidableEq, Repr

/-- The opcode map (`30_encoding.md` R75), the families 0x0 and 0x1. -/
def opcodeTableLow : List OpcodeRow :=
  [ ⟨"NOP", 0x01000000, 0xFFFFFFFF⟩, ⟨"CLRF", 0x02000000, 0xFFFFFFFF⟩, ⟨"RST", 0x03000000, 0xFFFFFFFF⟩,
    ⟨"ELI", 0x10000000, 0xFF0FFF00⟩, ⟨"EADD", 0x11000000, 0xFF000FFF⟩, ⟨"EMUL", 0x12000000, 0xFF000FFF⟩,
    ⟨"EINV", 0x13000000, 0xFF00FFFF⟩ ]

/-- The opcode map (`30_encoding.md` R75), the families 0x2 and 0x3. -/
def opcodeTableHigh : List OpcodeRow :=
  [ ⟨"PCLR", 0x20000000, 0xFF0FFF00⟩, ⟨"PSB", 0x21000000, 0xFF000F00⟩, ⟨"PADD", 0x22000000, 0xFF000FFF⟩,
    ⟨"PSCL", 0x23000000, 0xFF000FFF⟩, ⟨"SLD", 0x30000000, 0xFF00FF00⟩, ⟨"SCLR", 0x31000000, 0xFF0FFFFF⟩,
    ⟨"SLC", 0x32000000, 0xFF00FFFF⟩, ⟨"SCOMB", 0x33000000, 0xFF0FFF00⟩ ]

/-- The opcode map, 15 rows (`30_encoding.md` R75). -/
def opcodeTable : List OpcodeRow := opcodeTableLow ++ opcodeTableHigh

/-- Does the word match the row: `(w and mask) = match` (`30_encoding.md` R71, R75)? -/
def OpcodeRow.matchesWord (r : OpcodeRow) (w : Word) : Bool := w &&& r.mask == r.value

/-- A well-formed command word: one that matches some row of the opcode map. Every other word is illegal
(`30_encoding.md` R80). -/
def legalWord (w : Word) : Bool := opcodeTable.any (·.matchesWord w)

end Sys2Proof
end

