-- ==== Sys2Proof/Decode.lean ====
section
/-! DEFINITION. The decoder of command words, total and rejecting by name, and the encoder after it
(`30_encoding.md` R70 to R76, R80, R81). -/

namespace Sys2Proof

/-- The `op` field, `w[31:24]` (`30_encoding.md` R70). -/
def opField (w : Word) : Byte := w.extractLsb' 24 8

/-- The `d` field, `w[23:20]` (`30_encoding.md` R70). -/
def dField (w : Word) : Fin 16 := (w.extractLsb' 20 4).toFin

/-- The `a` field, `w[19:16]` (`30_encoding.md` R70). -/
def aField (w : Word) : Fin 16 := (w.extractLsb' 16 4).toFin

/-- The `b` field, `w[15:12]` (`30_encoding.md` R70). -/
def bField (w : Word) : Fin 16 := (w.extractLsb' 12 4).toFin

/-- The `m` field, `w[19:12]`, the same bits as `a` and `b` together (`30_encoding.md` R70). -/
def mField (w : Word) : Byte := w.extractLsb' 12 8

/-- The `z` field, `w[11:8]`, reserved and zero in every command (`30_encoding.md` R70). -/
def zField (w : Word) : BitVec 4 := w.extractLsb' 8 4

/-- The `imm` field, `w[7:0]` (`30_encoding.md` R70). -/
def immField (w : Word) : Byte := w.extractLsb' 0 8

/-- The seven formats (`30_encoding.md` R71). -/
inductive Format where
  | fN
  | fR1
  | fR2
  | fR3
  | fI
  | fRI
  | fXI
deriving DecidableEq, Repr

/-- Are the fields the format leaves unused all zero (`30_encoding.md` R71, the columns `d`, `a`, `b`, `z`, `imm`)? -/
def Format.unusedZero (fmt : Format) (w : Word) : Bool :=
  match fmt with
  | .fN => dField w == 0 && aField w == 0 && bField w == 0 && zField w == 0 && immField w == 0
  | .fR1 => aField w == 0 && bField w == 0 && zField w == 0 && immField w == 0
  | .fR2 => bField w == 0 && zField w == 0 && immField w == 0
  | .fR3 => zField w == 0 && immField w == 0
  | .fI => aField w == 0 && bField w == 0 && zField w == 0
  | .fRI => bField w == 0 && zField w == 0
  | .fXI => zField w == 0

/-- The two kinds of illegal word (`30_encoding.md` R80). -/
inductive Illegal where
  /-- `op` is not one of the 15 opcodes. -/
  | unassignedOpcode
  /-- `op` is assigned, and a bit its format requires to be zero is 1. -/
  | reservedBitSet
  /-- The bytes on the bus are not the four bytes of one word (`20_memory.md` R51). -/
  | notOneWord
deriving DecidableEq, Repr

/-- What the decoder answers: the command, or the reason the word is illegal. -/
inductive Decoded where
  | command (i : Instr)
  | illegal (why : Illegal)
deriving DecidableEq, Repr

/-- The command, if there is one. -/
def Decoded.toOption : Decoded → Option Instr
  | .command i => some i
  | .illegal _ => none

/-- Is it a command? -/
def Decoded.isCommand : Decoded → Bool
  | .command _ => true
  | .illegal _ => false

/-- A word with an assigned opcode is that command when the bits its format leaves unused are zero, and illegal
otherwise (`30_encoding.md` R71, R80). -/
def ofFormat (fmt : Format) (w : Word) (i : Instr) : Decoded :=
  if fmt.unusedZero w then .command i else .illegal .reservedBitSet

/-- The decoder: the opcode selects the row (`30_encoding.md` R75), the row's format says which bits must be zero (R71),
and every word that is no command is illegal (R80, R81). -/
def decode (w : Word) : Decoded :=
  match (opField w).toNat with
  | 0x01 => ofFormat .fN w .nop
  | 0x02 => ofFormat .fN w .clrf
  | 0x03 => ofFormat .fN w .rst
  | 0x10 => ofFormat .fI w (.eli (dField w) (immField w))
  | 0x11 => ofFormat .fR3 w (.eadd (dField w) (aField w) (bField w))
  | 0x12 => ofFormat .fR3 w (.emul (dField w) (aField w) (bField w))
  | 0x13 => ofFormat .fR2 w (.einv (dField w) (aField w))
  | 0x20 => ofFormat .fI w (.pclr (dField w) (immField w))
  | 0x21 => ofFormat .fXI w (.psb (dField w) (mField w) (immField w))
  | 0x22 => ofFormat .fR3 w (.padd (dField w) (aField w) (bField w))
  | 0x23 => ofFormat .fR3 w (.pscl (dField w) (aField w) (bField w))
  | 0x30 => ofFormat .fRI w (.sld (dField w) (aField w) (immField w))
  | 0x31 => ofFormat .fR1 w (.sclr (dField w))
  | 0x32 => ofFormat .fR2 w (.slc (dField w) (aField w))
  | 0x33 => ofFormat .fI w (.scomb (dField w) (immField w))
  | _ => .illegal .unassignedOpcode

/-- The mnemonic of a command's row (`30_encoding.md` R75). -/
def mnemonicOf : Instr → String
  | .nop => "NOP"
  | .clrf => "CLRF"
  | .rst => "RST"
  | .eli _ _ => "ELI"
  | .eadd _ _ _ => "EADD"
  | .emul _ _ _ => "EMUL"
  | .einv _ _ => "EINV"
  | .pclr _ _ => "PCLR"
  | .psb _ _ _ => "PSB"
  | .padd _ _ _ => "PADD"
  | .pscl _ _ _ => "PSCL"
  | .sld _ _ _ => "SLD"
  | .sclr _ => "SCLR"
  | .slc _ _ => "SLC"
  | .scomb _ _ => "SCOMB"

/-- A word from its fields, `z` zero (`30_encoding.md` R70, R76). -/
def packWord (op : Byte) (d a b : Fin 16) (imm : Byte) : Word :=
  op ++ BitVec.ofFin (w := 4) d ++ BitVec.ofFin (w := 4) a ++ BitVec.ofFin (w := 4) b ++ 0#4 ++ imm

/-- A word of format XI from its fields, `z` zero (`30_encoding.md` R70, R76). -/
def packWordXI (op : Byte) (d : Fin 16) (m imm : Byte) : Word :=
  op ++ BitVec.ofFin (w := 4) d ++ m ++ 0#4 ++ imm

/-- The encoder: the word of a command, the fields its format does not use zero (`30_encoding.md` R75, R76). -/
def encode : Instr → Word
  | .nop => packWord 0x01#8 0 0 0 0#8
  | .clrf => packWord 0x02#8 0 0 0 0#8
  | .rst => packWord 0x03#8 0 0 0 0#8
  | .eli d imm => packWord 0x10#8 d 0 0 imm
  | .eadd d a b => packWord 0x11#8 d a b 0#8
  | .emul d a b => packWord 0x12#8 d a b 0#8
  | .einv d a => packWord 0x13#8 d a 0 0#8
  | .pclr d imm => packWord 0x20#8 d 0 0 imm
  | .psb d m imm => packWordXI 0x21#8 d m imm
  | .padd d a b => packWord 0x22#8 d a b 0#8
  | .pscl d a b => packWord 0x23#8 d a b 0#8
  | .sld d a imm => packWord 0x30#8 d a 0 imm
  | .sclr d => packWord 0x31#8 d 0 0 0#8
  | .slc d a => packWord 0x32#8 d a 0 0#8
  | .scomb d imm => packWord 0x33#8 d 0 0 imm

/-- A 32-bit little-endian value from bytes, the one at the lowest address first; missing bytes are 0
(`20_memory.md` R52, R55). -/
def wordOfBytes (bs : List Byte) : Word :=
  bs.getD 3 0 ++ bs.getD 2 0 ++ bs.getD 1 0 ++ bs.getD 0 0

/-- The four bytes of a word as a byte bus carries them, the one at the lowest address first (`20_memory.md` R51, R55). -/
def bytesOfWord (w : Word) : List Byte :=
  [w.extractLsb' 0 8, w.extractLsb' 8 8, w.extractLsb' 16 8, w.extractLsb' 24 8]

/-- The decoder on bytes: one command is exactly four of them (`30_encoding.md` R70, `20_memory.md` R51). -/
def decodeBytes (bs : List Byte) : Decoded :=
  if bs.length = 4 then decode (wordOfBytes bs) else .illegal .notOneWord

/-- The command the decoder reads from an instruction whose bits are `w`, as `opcode_table.json` numbers them: one 32-bit
word, the bits above `nbits` zero, laid out little-endian. -/
def decodeTableWord (nbits w : Nat) : Option Instr :=
  (decodeBytes (bytesOfWord (BitVec.ofNat 32 (w % 2 ^ nbits)))).toOption

end Sys2Proof
end

