-- ==== Sys2Proof/Machine/Field.lean ====
section
/-! DEFINITION. The arithmetic of GF(256) (`40_field.md` R100 to R103): the functions the commands use, and beside them
the source's definition of the product and the table method, which claims compare with. -/

namespace Sys2Proof.Machine

/-- `gf_add(a, b)`: exclusive or, which is subtraction too (`40_field.md` R100). -/
def gfAdd (a b : Byte) : Byte := a ^^^ b

/-- Multiplication by z: shift left, drop bit 8, and reduce if bit 7 was 1 (`40_field.md` R101, the loop's last three
lines). -/
def xtimes (poly : BitVec 9) (a : Byte) : Byte :=
  if a.getLsbD 7 then (a <<< 1) ^^^ poly.setWidth 8 else a <<< 1

/-- The loop of `gf_mul` (`40_field.md` R101): `n` rounds from round `i`, with the running multiple `a` and result `r`. -/
def gfMulLoop (poly : BitVec 9) (b : Byte) : (n i : Nat) → (a r : Byte) → Byte
  | 0, _, _, r => r
  | n + 1, i, a, r => gfMulLoop poly b n (i + 1) (xtimes poly a) (if b.getLsbD i then r ^^^ a else r)

/-- `gf_mul` with the reduction polynomial as a parameter (`00_scope.md` R6, `40_field.md` R101). -/
def gfMulBy (poly : BitVec 9) (a b : Byte) : Byte := gfMulLoop poly b 8 0 a 0

/-- `gf_mul(a, b)`: multiplication in the unit's field (`40_field.md` R101, `00_scope.md` R7). The field's polynomial is a
named argument with the default of R6, here and in all that multiplies. -/
def gfMul (a b : Byte) (fieldPoly : BitVec 9 := Config.fieldPoly) : Byte := gfMulBy fieldPoly a b

/-- `a` multiplied `n` times into 0x01 (`40_field.md` R103, the loop). -/
def gfPow (a : Byte) (n : Nat) (fieldPoly : BitVec 9 := Config.fieldPoly) : Byte :=
  match n with
  | 0 => 0x01
  | n + 1 => gfMul (gfPow a n fieldPoly) a fieldPoly

/-- `gf_inv(a)`: it fails for 0x00 and is a^254 otherwise (`40_field.md` R103). -/
def gfInv (a : Byte) (fieldPoly : BitVec 9 := Config.fieldPoly) : Option Byte :=
  if a = 0x00 then none else some (gfPow a 254 fieldPoly)

/-- The product without carries of two polynomials over GF(2), partial products combined by xor: degree at most 14
(`40_field.md` R101). -/
def carrylessMul (a b : Byte) : BitVec 15 :=
  (List.range 8).foldl (fun r i => if b.getLsbD i then r ^^^ (a.setWidth 15 <<< i) else r) 0

/-- Long division of a polynomial of degree at most 14 by one of degree 8: `n` rounds clear the bits `n + 7` down to 8
(`40_field.md` R101). -/
def polyRemLoop (poly : BitVec 9) : Nat → BitVec 15 → BitVec 15
  | 0, r => r
  | n + 1, r => polyRemLoop poly n (if r.getLsbD (n + 8) then r ^^^ (poly.setWidth 15 <<< n) else r)

/-- The remainder of a product on division by a degree-8 polynomial; it has degree at most 7 (`40_field.md` R101). -/
def polyRem (poly : BitVec 9) (r : BitVec 15) : Byte := (polyRemLoop poly 7 r).setWidth 8

/-- `exp[i] = g^i` for the generator 0x02 (`40_field.md` R102). -/
def expTable : List Byte := (List.range 255).map fun i => gfPow 0x02 i

/-- `log[a]`, the i in 0..254 with `exp[i] = a`, for a nonzero (`40_field.md` R102). -/
def logOf (a : Byte) : Nat := expTable.idxOf a

/-- The table method of multiplication (`40_field.md` R102), an implementation option with the same results. The tables
are constants, not state. -/
def gfMulByTables (a b : Byte) : Byte :=
  if a = 0 ∨ b = 0 then 0 else expTable.getD ((logOf a + logOf b) % 255) 0

end Sys2Proof.Machine
end

