-- ==== Sys2Proof/Machine/State.lean ====
section
/-! DEFINITION. The state of the GFU (`10_state.md` R20), the host's pending actions and replies beside it, and the
reasons a step could stop with. -/

namespace Sys2Proof.Machine

/-- A polynomial: a length, 0..64, and 64 coefficient bytes, highest degree first, of which the first `len` are the
polynomial (`10_state.md` R25). The bound on `len` and the zero padding (R26) are an invariant, `Poly.Ok` in `Safety`. -/
structure Poly where
  len : BitVec 7
  c : Vector Byte 64
deriving DecidableEq, Repr

/-- A share slot: the valid bit, the share index, and the payload's length and bytes (`10_state.md` R29). -/
structure Slot where
  v : Bool
  x : Byte
  payload : Poly
deriving DecidableEq, Repr

/-- The architectural state of the GFU, exactly the rows of `10_state.md` R20. -/
structure Gfu where
  /-- The E registers (R21). -/
  e : Vector Byte 16
  /-- The P registers (R25). -/
  p : Vector Poly 16
  /-- The share slots (R29). -/
  s : Vector Slot 16
  /-- `STATUS.F`: a fault is latched (R32). -/
  statusF : Bool
  /-- `STATUS.LZ`: the last completed SCOMB's result had a zero leading byte (R32, R33). -/
  statusLZ : Bool
  /-- `FCAUSE` (R34). -/
  fcause : Byte
  /-- `FINFO` (R35). -/
  finfo : Byte
  /-- `FCMD` (R36). -/
  fcmd : Word
deriving DecidableEq, Repr

/-- The machine: the unit's state, and the host at its port. DESIGN CHOICE, safe (log entries 3 and 5): `pending` and
`replies` are the model's own fields, not the spec's. They hold the host's actions not yet taken (`20_memory.md` R50,
R60; `70_reset_and_hazards.md` R216) and the values its reads have returned (R52), both oldest first. -/
structure State where
  gfu : Gfu
  pending : List HostAction
  replies : List Word
deriving DecidableEq, Repr

/-- The reasons a step stops the machine. There is none: the GFU's own faults are latched in its registers and the
machine goes on (`60_exceptions.md` R185, R189: "There is no fatal/process-terminating condition"). DEDUCED, safe (log
entry 11). -/
inductive Fault where
deriving DecidableEq, Repr

/-- The reasons the model gives no meaning. -/
inductive Refusal where
  /-- Raised by an arm of `exec` whose instruction has no meaning yet, by its mnemonic. Safe. No arm raises it: every
  command has its meaning. -/
  | notModelled (mnemonic : String)
deriving DecidableEq, Repr

/-- What a step answers. -/
abbrev Out := Host.Outcome State Fault Refusal

/-- The empty polynomial, the reset content of a P register (`10_state.md` R28, R40). -/
def Poly.empty : Poly := { len := 0, c := Vector.replicate 64 0 }

/-- The empty slot (`10_state.md` R31, R40). -/
def Slot.empty : Slot := { v := false, x := 0, payload := Poly.empty }

/-- The unit after reset: every bit is zero (`10_state.md` R40, `70_reset_and_hazards.md` R210). -/
def Gfu.reset : Gfu where
  e := Vector.replicate 16 0
  p := Vector.replicate 16 Poly.empty
  s := Vector.replicate 16 Slot.empty
  statusF := false
  statusLZ := false
  fcause := 0
  finfo := 0
  fcmd := 0

/-- The machine right after power-on reset: the unit in its reset state, before the first host action
(`70_reset_and_hazards.md` R210). No action is pending and no read has been answered (log entries 3 and 5). -/
def State.reset : State := { gfu := Gfu.reset, pending := [], replies := [] }

end Sys2Proof.Machine
end

