-- ==== Sys2Proof/Machine/Ops.lean ====
section
/-! DEFINITION. The named operations over registers, polynomials and share slots, taking a fault and the return from it.
A command reads the old state and writes the new one (`00_scope.md` R11). -/

namespace Sys2Proof.Machine

/-- `e[i]` (`00_scope.md` R11). -/
def Gfu.getE (g : Gfu) (i : EReg) : Byte := g.e[i.val]

/-- `p[i]` (`00_scope.md` R11). -/
def Gfu.getP (g : Gfu) (i : PReg) : Poly := g.p[i.val]

/-- Share slot `k` (`00_scope.md` R11). -/
def Gfu.getS (g : Gfu) (k : SlotNum) : Slot := g.s[k.val]

/-- `e[i] <- v` (`00_scope.md` R11). -/
def Gfu.setE (g : Gfu) (i : EReg) (v : Byte) : Gfu := { g with e := g.e.set i.val v }

/-- Register `p[i]` written whole (`41_poly.md` R120). -/
def Gfu.setP (g : Gfu) (i : PReg) (q : Poly) : Gfu := { g with p := g.p.set i.val q }

/-- Share slot `k` written whole (`10_state.md` R31). -/
def Gfu.setS (g : Gfu) (k : SlotNum) (sl : Slot) : Gfu := { g with s := g.s.set k.val sl }

/-- `STATUS.LZ <- z` (`10_state.md` R33). -/
def Gfu.setLZ (g : Gfu) (z : Bool) : Gfu := { g with statusLZ := z }

/-- The byte at position `n` (`10_state.md` R25). DESIGN CHOICE, safe (log entry 8): there is no position above 63, and
the model reads 0x00 there, as the padding reads; only a `len` above 64, which no run reaches, would ask for one. -/
def Poly.coeff (q : Poly) (n : Nat) : Byte := if h : n < 64 then q.c[n] else 0

/-- Position `n` set, `len` unchanged (`41_poly.md` R122). DESIGN CHOICE, safe (log entry 8): above 63 nothing is set. -/
def Poly.setCoeff (q : Poly) (n : Nat) (v : Byte) : Poly := { q with c := q.c.setIfInBounds n v }

/-- `p.len <- len; for n in 0..63: p.c[n] <- f n if n < len else 0x00`: the form in which PADD, PSCL and SCOMB write a
register (`41_poly.md` R120, R123, R124, `42_shamir.md` R152). -/
def Poly.build (len : BitVec 7) (f : Nat → Byte) : Poly where
  len := len
  c := Vector.ofFn fun n : Fin 64 => if n.val < len.toNat then f n.val else 0

/-- The all-zero polynomial of a given length (`41_poly.md` R121). -/
def Poly.zeros (len : BitVec 7) : Poly := { len := len, c := Vector.replicate 64 0 }

/-- The coefficient of x^k, zero at and above the length: position `len-1-k` (`41_poly.md` R123, R126). -/
def Poly.atDegree (q : Poly) (k : Nat) : Byte :=
  if k < q.len.toNat then q.coeff (q.len.toNat - 1 - k) else 0

/-- `max(la, lb)` on lengths (`00_scope.md` R10). -/
def maxLen (la lb : BitVec 7) : BitVec 7 := if la.toNat < lb.toNat then lb else la

/-- The sum of two polynomials, aligned at their constant terms, never normalised (`41_poly.md` R123, `10_state.md`
R27). -/
def Poly.add (qa qb : Poly) : Poly :=
  let L := maxLen qa.len qb.len
  Poly.build L fun n => gfAdd (qa.atDegree (L.toNat - 1 - n)) (qb.atDegree (L.toNat - 1 - n))

/-- A polynomial times a scalar, coefficient by coefficient (`41_poly.md` R124). -/
def Poly.scale (q : Poly) (k : Byte) (fieldPoly : BitVec 9 := Config.fieldPoly) : Poly :=
  Poly.build q.len fun n => gfMul (q.coeff n) k fieldPoly

/-- The causes of a fault (`60_exceptions.md` R180). -/
inductive FaultCause where
  | illegalCommand
  | illegalOperand
  | divisionByZero
deriving DecidableEq, Repr

/-- The cause codes of `FCAUSE` (`60_exceptions.md` R180, `10_state.md` R34). -/
def FaultCause.code : FaultCause → Byte
  | .illegalCommand => 0x01
  | .illegalOperand => 0x02
  | .divisionByZero => 0x03

/-- The unit with a fault latched: the four fault registers written, everything else as before the command
(`60_exceptions.md` R185). -/
def Gfu.enterFault (g : Gfu) (w : Word) (cause : FaultCause) (info : Byte) : Gfu :=
  { g with statusF := true, fcause := cause.code, finfo := info, fcmd := w }

/-- The four fault registers cleared, everything else as it was: the return from a fault (`43_system.md` R171,
`60_exceptions.md` R188). -/
def Gfu.clearFault (g : Gfu) : Gfu := { g with statusF := false, fcause := 0, finfo := 0, fcmd := 0 }

/-- A register or slot number as a byte of `FINFO` (`10_state.md` R35). -/
def infoOf (k : Fin 16) : Byte := BitVec.ofNat 8 k.val

/-- A command completes, leaving the unit as `g`; the host's side is untouched. -/
def finish (s : State) (g : Gfu) : Out := .next { s with gfu := g }

/-- TAKING A FAULT, `raise <Fault>(info)` while the word `w` is executed (`60_exceptions.md` R185): the next state has the
four fault registers written and nothing else changed. -/
def raise (w : Word) (cause : FaultCause) (info : Byte) (s : State) : Out :=
  finish s (s.gfu.enterFault w cause info)

end Sys2Proof.Machine
end

