-- ==== Sys2Proof/Machine/FieldElement.lean ====
section
/-! DEFINITION. The field-element commands ELI, EADD, EMUL, EINV (`40_field.md`). -/

namespace Sys2Proof.Machine

/-- ELI: `e[d] <- imm` (`40_field.md` R104). -/
def execEli (d : EReg) (imm : Byte) (s : State) : Out := finish s (s.gfu.setE d imm)

/-- EADD: `e[d] <- gf_add(e[a], e[b])` (`40_field.md` R105). -/
def execEadd (d a b : EReg) (s : State) : Out := finish s (s.gfu.setE d (gfAdd (s.gfu.getE a) (s.gfu.getE b)))

/-- EMUL in the field of a given polynomial: `e[d] <- gf_mul(e[a], e[b])` (`40_field.md` R106). -/
def execEmulWith (fieldPoly : BitVec 9) (d a b : EReg) (s : State) : Out :=
  finish s (s.gfu.setE d (gfMul (s.gfu.getE a) (s.gfu.getE b) fieldPoly))

/-- EMUL at the default polynomial (`40_field.md` R106, `00_scope.md` R6). -/
def execEmul (d a b : EReg) (s : State) : Out := execEmulWith Config.fieldPoly d a b s

/-- EINV in the field of a given polynomial: `e[d] <- gf_inv(e[a])`, and DivisionByZero with the source's number when `e[a]`
is 0x00 (`40_field.md` R107). -/
def execEinvWith (fieldPoly : BitVec 9) (d a : EReg) (s : State) : Out :=
  match gfInv (s.gfu.getE a) fieldPoly with
  | none => raise (encode (.einv d a)) .divisionByZero (infoOf a) s
  | some b => finish s (s.gfu.setE d b)

/-- EINV at the default polynomial (`40_field.md` R107, `00_scope.md` R6). -/
def execEinv (d a : EReg) (s : State) : Out := execEinvWith Config.fieldPoly d a s

end Sys2Proof.Machine
end

