-- ==== Sys2Proof/Machine/Operands.lean ====
section
/-! DEFINITION. The operand checks of the commands (`30_encoding.md` R73, `60_exceptions.md` R182). Operands themselves
are used as they stand: register numbers select a register, immediates are unsigned (R72, R73). -/

namespace Sys2Proof.Machine

/-- The length of PCLR is legal: at most `LMAX` (`41_poly.md` R121). -/
def legalLength (imm : Byte) : Bool := imm.toNat ≤ Config.lMax

/-- The share index of SLD is legal: 1..16 (`42_shamir.md` R141). -/
def legalIndex (imm : Byte) : Bool := Config.xMin ≤ imm.toNat && imm.toNat ≤ Config.xMax

/-- The threshold of SCOMB is legal: 1..16 (`42_shamir.md` R152). -/
def legalThreshold (imm : Byte) : Bool := Config.tMin ≤ imm.toNat && imm.toNat ≤ Config.tMax

/-- The coefficient index of PSB is legal: below the register's length (`41_poly.md` R122). -/
def legalPosition (q : Poly) (m : Byte) : Bool := m.toNat < q.len.toNat

/-- A legal length immediate as a length (`41_poly.md` R121, `p[d].len <- imm`). -/
def lengthOf (imm : Byte) : BitVec 7 := imm.setWidth 7

end Sys2Proof.Machine
end

