-- ==== Sys2Proof/Machine/Polynomial.lean ====
section
/-! DEFINITION. The polynomial commands PCLR, PSB, PADD, PSCL (`41_poly.md`). -/

namespace Sys2Proof.Machine

/-- PCLR: `p[d]` becomes the all-zero polynomial of length `imm`; IllegalOperand above 64 (`41_poly.md` R121). -/
def execPclr (d : PReg) (imm : Byte) (s : State) : Out :=
  if legalLength imm then finish s (s.gfu.setP d (Poly.zeros (lengthOf imm)))
  else raise (encode (.pclr d imm)) .illegalOperand 0 s

/-- PSB: `p[d].c[m] <- imm`; IllegalOperand at and beyond the length (`41_poly.md` R122). -/
def execPsb (d : PReg) (m imm : Byte) (s : State) : Out :=
  if legalPosition (s.gfu.getP d) m then finish s (s.gfu.setP d ((s.gfu.getP d).setCoeff m.toNat imm))
  else raise (encode (.psb d m imm)) .illegalOperand 0 s

/-- PADD: `p[d] <- p[a] + p[b]` (`41_poly.md` R123). -/
def execPadd (d a b : PReg) (s : State) : Out := finish s (s.gfu.setP d ((s.gfu.getP a).add (s.gfu.getP b)))

/-- PSCL in the field of a given polynomial: `p[d] <- p[a]` scaled by `e[b]` (`41_poly.md` R124). -/
def execPsclWith (fieldPoly : BitVec 9) (d a : PReg) (b : EReg) (s : State) : Out :=
  finish s (s.gfu.setP d ((s.gfu.getP a).scale (s.gfu.getE b) fieldPoly))

/-- PSCL at the default polynomial (`41_poly.md` R124, `00_scope.md` R6). -/
def execPscl (d a : PReg) (b : EReg) (s : State) : Out := execPsclWith Config.fieldPoly d a b s

end Sys2Proof.Machine
end

