-- ==== Sys2Proof/Machine/Combiner.lean ====
section
/-! DEFINITION. The arithmetic of the Lagrange combiner (`42_shamir.md` R140, R150, R152). -/

namespace Sys2Proof.Machine

/-- The working set K: the numbers of the valid slots, ascending (`42_shamir.md` R140). -/
def Gfu.workingSet (g : Gfu) : List SlotNum := (List.finRange 16).filter fun k => (g.getS k).v

/-- The numerator N: the product of the indices of all slots of K, the slot's own included (`42_shamir.md` R150). -/
def Gfu.numerator (g : Gfu) (K : List SlotNum) (fieldPoly : BitVec 9 := Config.fieldPoly) : Byte :=
  K.foldl (fun n k => gfMul n (g.getS k).x fieldPoly) 0x01

/-- The denominator D_i: the product over the other SLOTS j of K of x_j xor x_i; the exclusion compares slot numbers,
never index values (`42_shamir.md` R150, `90_conflicts.md` C4). -/
def Gfu.denominator (g : Gfu) (K : List SlotNum) (i : SlotNum) (fieldPoly : BitVec 9 := Config.fieldPoly) : Byte :=
  K.foldl (fun d j => if j = i then d else gfMul d (gfAdd (g.getS j).x (g.getS i).x) fieldPoly) 0x01

/-- The Lagrange coefficient LC_i; it fails when D_i is 0x00 (`42_shamir.md` R150). -/
def Gfu.lagrange (g : Gfu) (K : List SlotNum) (i : SlotNum) (fieldPoly : BitVec 9 := Config.fieldPoly) :
    Option Byte :=
  (gfInv (g.denominator K i fieldPoly) fieldPoly).map fun b => gfMul (g.numerator K fieldPoly) b fieldPoly

/-- One share's term added into the sum: `acc[n] <- acc[n] xor gf_mul(s[i].c[n], LC)` for n below the length
(`42_shamir.md` R152). -/
def Poly.addTerm (acc y : Poly) (lc : Byte) (fieldPoly : BitVec 9 := Config.fieldPoly) : Poly :=
  Poly.build acc.len fun n => gfAdd (acc.coeff n) (gfMul (y.coeff n) lc fieldPoly)

/-- The combiner's loop over the slots still to visit: the sum of all terms, or the slot whose denominator is zero
(`42_shamir.md` R152). `K` is the whole working set. -/
def Gfu.combineLoop (g : Gfu) (K todo : List SlotNum) (acc : Poly) (fieldPoly : BitVec 9 := Config.fieldPoly) :
    Except SlotNum Poly :=
  match todo with
  | [] => .ok acc
  | i :: rest =>
    match g.lagrange K i fieldPoly with
    | none => .error i
    | some lc => g.combineLoop K rest (acc.addTerm (g.getS i).payload lc fieldPoly) fieldPoly

/-- The payload length of the first slot of K (`42_shamir.md` R152, `L <- s[K[0]].len`). -/
def Gfu.commonLen (g : Gfu) : List SlotNum → BitVec 7
  | [] => 0
  | k :: _ => (g.getS k).payload.len

/-- The combine of the slots of K, from an accumulator of zeros (`42_shamir.md` R152). -/
def Gfu.combine (g : Gfu) (K : List SlotNum) (fieldPoly : BitVec 9 := Config.fieldPoly) : Except SlotNum Poly :=
  g.combineLoop K K (Poly.zeros (g.commonLen K)) fieldPoly

/-- Some slot of K has a payload of another length (`42_shamir.md` R152). -/
def Gfu.unequalLengths (g : Gfu) (K : List SlotNum) : Bool := K.any fun k => (g.getS k).payload.len != g.commonLen K

end Sys2Proof.Machine
end

