-- ==== Sys2Proof/Machine/Flags.lean ====
section
/-! DEFINITION. The flags of the GFU: `STATUS.LZ`'s rule, and `STATUS` and `VALID` as the host reads them
(`10_state.md` R32, R33, R37). No command reads a flag; `STATUS.F` is written by `raise` and cleared by `clearFault`. -/

namespace Sys2Proof.Machine

/-- `STATUS.LZ` after a combine whose result is `q`: its leading byte is 0x00 (`10_state.md` R33). -/
def leadingZero (q : Poly) : Bool := q.coeff 0 == 0

/-- `STATUS` as a byte: `{0b000000, STATUS.LZ, STATUS.F}` (`20_memory.md` R53, `10_state.md` R32). -/
def Gfu.statusByte (g : Gfu) : Byte := 0#6 ++ BitVec.ofBool g.statusLZ ++ BitVec.ofBool g.statusF

/-- One byte of `VALID`: bit i is the valid bit of slot `base + i` (`10_state.md` R37, `20_memory.md` R53). -/
def Gfu.validByte (g : Gfu) (base : Nat) : Byte :=
  BitVec.ofFnLE fun i : Fin 8 => (g.getS (Fin.ofNat 16 (base + i.val))).v

end Sys2Proof.Machine
end

