-- ==== Sys2Proof/Machine/Shamir.lean ====
section
/-! DEFINITION. The share table and combiner commands SLD, SCLR, SLC, SCOMB (`42_shamir.md`). -/

namespace Sys2Proof.Machine

/-- SLD: the empty slot `d` takes a copy of `p[a]` as payload under the index `imm`; IllegalOperand for an index outside
1..16, an empty payload or an occupied slot, checked in that order (`42_shamir.md` R141). -/
def execSld (d : SlotNum) (a : PReg) (imm : Byte) (s : State) : Out :=
  if !legalIndex imm then raise (encode (.sld d a imm)) .illegalOperand 0 s
  else if (s.gfu.getP a).len = 0 then raise (encode (.sld d a imm)) .illegalOperand 0 s
  else if (s.gfu.getS d).v then raise (encode (.sld d a imm)) .illegalOperand 0 s
  else finish s (s.gfu.setS d { v := true, x := imm, payload := s.gfu.getP a })

/-- SCLR: slot `d` is emptied (`42_shamir.md` R142). -/
def execSclr (d : SlotNum) (s : State) : Out := finish s (s.gfu.setS d Slot.empty)

/-- SLC in the field of a given polynomial: `e[d]` takes the Lagrange coefficient of slot `a`; IllegalOperand when the slot
is empty, DivisionByZero with the slot's number when its denominator is zero (`42_shamir.md` R151). -/
def execSlcWith (fieldPoly : BitVec 9) (d : EReg) (a : SlotNum) (s : State) : Out :=
  if !(s.gfu.getS a).v then raise (encode (.slc d a)) .illegalOperand 0 s
  else
    match s.gfu.lagrange s.gfu.workingSet a fieldPoly with
    | none => raise (encode (.slc d a)) .divisionByZero (infoOf a) s
    | some lc => finish s (s.gfu.setE d lc)

/-- SLC at the default polynomial (`42_shamir.md` R151, `00_scope.md` R6). -/
def execSlc (d : EReg) (a : SlotNum) (s : State) : Out := execSlcWith Config.fieldPoly d a s

/-- SCOMB in the field of a given polynomial: `p[d]` takes the combine of the valid slots and `STATUS.LZ` whether its
leading byte is zero; IllegalOperand for a threshold outside 1..16, a number of valid slots other than the threshold, or
unequal lengths, in that order, and DivisionByZero with the lowest slot number whose denominator is zero (`42_shamir.md`
R152). -/
def execScombWith (fieldPoly : BitVec 9) (d : PReg) (imm : Byte) (s : State) : Out :=
  let K := s.gfu.workingSet
  if !legalThreshold imm then raise (encode (.scomb d imm)) .illegalOperand 0 s
  else if K.length ≠ imm.toNat then raise (encode (.scomb d imm)) .illegalOperand 0 s
  else if s.gfu.unequalLengths K then raise (encode (.scomb d imm)) .illegalOperand 0 s
  else
    match s.gfu.combine K fieldPoly with
    | .error i => raise (encode (.scomb d imm)) .divisionByZero (infoOf i) s
    | .ok q => finish s ((s.gfu.setP d q).setLZ (leadingZero q))

/-- SCOMB at the default polynomial (`42_shamir.md` R152, `00_scope.md` R6). -/
def execScomb (d : PReg) (imm : Byte) (s : State) : Out := execScombWith Config.fieldPoly d imm s

end Sys2Proof.Machine
end

