-- ==== Sys2Proof/Machine/System.lean ====
section
/-! DEFINITION. The system commands NOP, CLRF, RST (`43_system.md`). -/

namespace Sys2Proof.Machine

/-- NOP: the state after equals the state before (`43_system.md` R170). -/
def execNop (s : State) : Out := finish s s.gfu

/-- CLRF: the fault latch is cleared (`43_system.md` R171). -/
def execClrf (s : State) : Out := finish s s.gfu.clearFault

/-- RST: every piece of the unit's state is set to its reset value (`43_system.md` R172). The host's pending actions and
the replies it has had are not the unit's state and stay (log entry 3). -/
def execRst (s : State) : Out := finish s Gfu.reset

end Sys2Proof.Machine
end

