-- ==== Sys2Proof/Machine/Dispatch.lean ====
section
/-! DEFINITION. The execution of one decoded command: one arm per row of the opcode map (`30_encoding.md` R75). -/

namespace Sys2Proof.Machine

def exec (i : Instr) (s : State) : Host.Outcome State Fault Refusal :=
  match i with
  | .nop => Sys2Proof.Machine.execNop s
  | .clrf => Sys2Proof.Machine.execClrf s
  | .rst => Sys2Proof.Machine.execRst s
  | .eli d imm => Sys2Proof.Machine.execEli d imm s
  | .eadd d a b => Sys2Proof.Machine.execEadd d a b s
  | .emul d a b => Sys2Proof.Machine.execEmul d a b s
  | .einv d a => Sys2Proof.Machine.execEinv d a s
  | .pclr d imm => Sys2Proof.Machine.execPclr d imm s
  | .psb d m imm => Sys2Proof.Machine.execPsb d m imm s
  | .padd d a b => Sys2Proof.Machine.execPadd d a b s
  | .pscl d a b => Sys2Proof.Machine.execPscl d a b s
  | .sld d a imm => Sys2Proof.Machine.execSld d a imm s
  | .sclr d => Sys2Proof.Machine.execSclr d s
  | .slc d a => Sys2Proof.Machine.execSlc d a s
  | .scomb d imm => Sys2Proof.Machine.execScomb d imm s

end Sys2Proof.Machine
end

