-- ==== Sys2Proof/Machine/ReadMap.lean ====
section
/-! DEFINITION. The read map: what each byte of the 4096-byte window is, and the host's read primitive
(`20_memory.md` R52, R53). -/

namespace Sys2Proof.Machine

/-- The read-map byte at an address (`20_memory.md` R53). Every address the table does not list reads 0x00. -/
def Gfu.readByte (g : Gfu) (addr : Addr) : Byte :=
  let n := addr.toNat
  if n < 0x010 then g.getE (Fin.ofNat 16 n)
  else if n = 0x010 then g.statusByte
  else if n = 0x011 then g.fcause
  else if n = 0x012 then g.finfo
  else if n = 0x013 then 0
  else if n < 0x018 then g.fcmd.extractLsb' (8 * (n - 0x014)) 8
  else if n = 0x018 then g.validByte 0
  else if n = 0x019 then g.validByte 8
  else if n < 0x040 then 0
  else if n < 0x050 then (g.getP (Fin.ofNat 16 (n - 0x040))).len.setWidth 8
  else if n < 0x060 then (g.getS (Fin.ofNat 16 (n - 0x050))).payload.len.setWidth 8
  else if n < 0x070 then (g.getS (Fin.ofNat 16 (n - 0x060))).x
  else if n < 0x400 then 0
  else if n < 0x800 then (g.getP (Fin.ofNat 16 ((n - 0x400) / 0x40))).coeff ((n - 0x400) % 0x40)
  else if n < 0xC00 then (g.getS (Fin.ofNat 16 ((n - 0x800) / 0x40))).payload.coeff ((n - 0x800) % 0x40)
  else 0

/-- The bytes a read of `n` bytes moves, lowest address first; addresses wrap modulo 4096 (`20_memory.md` R52). -/
def Gfu.readBytes (g : Gfu) (addr : Addr) (n : Nat) : List Byte :=
  (List.range n).map fun i => g.readByte (addr + BitVec.ofNat 12 i)

/-- `MemRead(addr, n)`: the n-byte unsigned value, here in 32 bits with zeros on top (`20_memory.md` R52, R55). -/
def Gfu.memRead (g : Gfu) (addr : Addr) (n : ReadWidth) : Word := wordOfBytes (g.readBytes addr n.bytes)

end Sys2Proof.Machine
end

