-- ==== Sys2Proof/Machine/Port.lean ====
section
/-! DEFINITION. The unit's side of the host's actions: the command port, the read window, and bus writes
(`20_memory.md` R51, R52, `60_exceptions.md` R181, R186, R187). -/

namespace Sys2Proof.Machine

/-- The words executed while a fault is latched: exactly CLRF and exactly RST, tested on the whole word
(`60_exceptions.md` R186). -/
def acknowledges (w : Word) : Bool := w == 0x02000000#32 || w == 0x03000000#32

/-- `HostCmd(w)` on a unit that executes a command as `run`, in the priority order of `60_exceptions.md` R187: while a fault
is latched every other word is dropped (R186); a word that is no command raises IllegalCommand (R181); a command is
executed. -/
def hostCmdBy (run : Instr → State → Out) (w : Word) (s : State) : Out :=
  if s.gfu.statusF && !acknowledges w then .next s
  else
    match decode w with
    | .illegal _ => raise w .illegalCommand 0 s
    | .command i => run i s

/-- `HostCmd(w)` (`20_memory.md` R51). -/
def hostCmd (w : Word) (s : State) : Out := hostCmdBy exec w s

/-- The command word a bus write delivers: the 4-byte write at 0xFFC, little-endian, and no other (`20_memory.md` R51,
R56). -/
def commandOfWrite (addr : Addr) (data : List Byte) : Option Word :=
  if addr = Config.commandPort ∧ data.length = 4 then some (wordOfBytes data) else none

/-- One host action at the unit. A read returns its value and changes nothing of the unit (`20_memory.md` R52); a write
that is no command write is ignored (R51). -/
def performBy (run : Instr → State → Out) (a : HostAction) (s : State) : Out :=
  match a with
  | .cmd w => hostCmdBy run w s
  | .read addr n => .next { s with replies := s.replies ++ [s.gfu.memRead addr n] }
  | .write addr data =>
    match commandOfWrite addr data with
    | some w => hostCmdBy run w s
    | none => .next s

/-- The next host action is taken, oldest first (`20_memory.md` R60). With none pending nothing happens: the unit acts
only when the host does (`20_memory.md` R50, `70_reset_and_hazards.md` R216). DEDUCED, safe (log entry 4). -/
def takeActionBy (run : Instr → State → Out) (s : State) : Out :=
  match s.pending with
  | [] => .next s
  | a :: rest => performBy run a { s with pending := rest }

/-- A command word put at the head of the pending actions (log entry 3). -/
def State.offer (s : State) (w : Word) : State := { s with pending := .cmd w :: s.pending }

end Sys2Proof.Machine
end

