-- ==== Sys2Proof/Machine/Step.lean ====
section
/-! DEFINITION. One step of the machine: one host action, atomically (`20_memory.md` R62). -/

namespace Sys2Proof.Machine

/-- One step: the oldest pending host action takes effect, wholly (`20_memory.md` R60, R62). -/
def step (s : State) : Host.Outcome State Fault Refusal := takeActionBy exec s

/-- The state in which the very next step is the host issuing the command word whose bits are `w`, as
`opcode_table.json` numbers them, the bits above `nbits` zero (log entry 3). -/
def State.withFetchWord (s : State) (nbits w : Nat) : State := s.offer (BitVec.ofNat 32 (w % 2 ^ nbits))

end Sys2Proof.Machine
end

