-- ==== Sys2Proof/Machine/Assembler.lean ====
section
/-! DEFINITION. The assembler's syntax and its three pseudo-instructions (`30_encoding.md` R84, R85): the command a line of
text stands for, and a command as text. The unit never sees text. -/

namespace Sys2Proof.Machine

/-- White space between the parts of a line. DESIGN CHOICE, safe (log entry 16): spaces and tabs. -/
def isBlank (c : Char) : Bool := c == ' ' || c == '\t'

/-- The text without white space at either end. -/
def trimBlanks (cs : List Char) : List Char := ((cs.dropWhile isBlank).reverse.dropWhile isBlank).reverse

/-- The text before a comment: `;` starts one (R84). -/
def stripComment (cs : List Char) : List Char := cs.takeWhile (· != ';')

/-- The operands, separated by commas (R84). -/
def splitCommas : List Char → List (List Char)
  | [] => [[]]
  | c :: cs =>
    if c == ',' then [] :: splitCommas cs
    else
      match splitCommas cs with
      | [] => [[c]]
      | x :: xs => (c :: x) :: xs

/-- The signs of the digits, each at the position of its value (R84). DESIGN CHOICE, safe (log entry 16): the letters are
read in either case. -/
def digitSigns : List Char := "0123456789abcdef".toList

/-- The value of a digit in a base up to sixteen. -/
def digitValue (base : Nat) (c : Char) : Option Nat := (digitSigns.take base).idxOf? c.toLower

/-- The number that digits write in a base; there is at least one digit. -/
def digitsValue (base : Nat) (cs : List Char) : Option Nat :=
  if cs.isEmpty then none
  else cs.foldlM (fun n c => (digitValue base c).map (n * base + ·)) 0

/-- An immediate, decimal or `0x` hexadecimal, that fits its 8 bits (R73, R84). -/
def immOperand (cs : List Char) : Option Byte :=
  let value := match cs with
    | '0' :: 'x' :: ds => digitsValue 16 ds
    | ds => digitsValue 10 ds
  match value with
  | some n => if n < 256 then some (BitVec.ofNat 8 n) else none
  | none => none

/-- A register or slot, its file's letter and its number 0..15 (R84). -/
def regOperand (letter : Char) : List Char → Option (Fin 16)
  | c :: ds =>
    match digitsValue 10 ds with
    | some n => if h : c = letter ∧ n < 16 then some ⟨n, h.2⟩ else none
    | none => none
  | [] => none

/-- The command a mnemonic with its operands stands for: the 15 forms of R84 and the pseudo-instructions `ESUB`, `PSUB`
and `EZERO` of R85, which are EADD, PADD and `ELI ed, 0`. -/
def instrOf (mnemonic : String) (ops : List (List Char)) : Option Instr :=
  match mnemonic, ops with
  | "NOP", [] => some .nop
  | "CLRF", [] => some .clrf
  | "RST", [] => some .rst
  | "ELI", [d, k] => do return .eli (← regOperand 'e' d) (← immOperand k)
  | "EADD", [d, a, b] => do return .eadd (← regOperand 'e' d) (← regOperand 'e' a) (← regOperand 'e' b)
  | "EMUL", [d, a, b] => do return .emul (← regOperand 'e' d) (← regOperand 'e' a) (← regOperand 'e' b)
  | "EINV", [d, a] => do return .einv (← regOperand 'e' d) (← regOperand 'e' a)
  | "PCLR", [d, k] => do return .pclr (← regOperand 'p' d) (← immOperand k)
  | "PSB", [d, m, k] => do return .psb (← regOperand 'p' d) (← immOperand m) (← immOperand k)
  | "PADD", [d, a, b] => do return .padd (← regOperand 'p' d) (← regOperand 'p' a) (← regOperand 'p' b)
  | "PSCL", [d, a, b] => do return .pscl (← regOperand 'p' d) (← regOperand 'p' a) (← regOperand 'e' b)
  | "SLD", [d, a, k] => do return .sld (← regOperand 's' d) (← regOperand 'p' a) (← immOperand k)
  | "SCLR", [d] => do return .sclr (← regOperand 's' d)
  | "SLC", [d, a] => do return .slc (← regOperand 'e' d) (← regOperand 's' a)
  | "SCOMB", [d, k] => do return .scomb (← regOperand 'p' d) (← immOperand k)
  | "ESUB", [d, a, b] => do return .eadd (← regOperand 'e' d) (← regOperand 'e' a) (← regOperand 'e' b)
  | "PSUB", [d, a, b] => do return .padd (← regOperand 'p' d) (← regOperand 'p' a) (← regOperand 'p' b)
  | "EZERO", [d] => do return .eli (← regOperand 'e' d) 0
  | _, _ => none

/-- The command of one line of assembler text (R84), or none. -/
def assembleLine (line : String) : Option Instr :=
  let text := trimBlanks (stripComment line.toList)
  let rest := trimBlanks (text.dropWhile fun c => !isBlank c)
  instrOf (String.ofList (text.takeWhile fun c => !isBlank c))
    (if rest.isEmpty then [] else (splitCommas rest).map trimBlanks)

/-- A register or slot as text (R84). -/
def regText (letter : String) (k : Fin 16) : String := letter ++ toString k.val

/-- A command as text, immediates decimal (R84). -/
def render : Instr → String
  | .nop => "NOP"
  | .clrf => "CLRF"
  | .rst => "RST"
  | .eli d imm => "ELI " ++ regText "e" d ++ ", " ++ toString imm.toNat
  | .eadd d a b => "EADD " ++ regText "e" d ++ ", " ++ regText "e" a ++ ", " ++ regText "e" b
  | .emul d a b => "EMUL " ++ regText "e" d ++ ", " ++ regText "e" a ++ ", " ++ regText "e" b
  | .einv d a => "EINV " ++ regText "e" d ++ ", " ++ regText "e" a
  | .pclr d imm => "PCLR " ++ regText "p" d ++ ", " ++ toString imm.toNat
  | .psb d m imm => "PSB " ++ regText "p" d ++ ", " ++ toString m.toNat ++ ", " ++ toString imm.toNat
  | .padd d a b => "PADD " ++ regText "p" d ++ ", " ++ regText "p" a ++ ", " ++ regText "p" b
  | .pscl d a b => "PSCL " ++ regText "p" d ++ ", " ++ regText "p" a ++ ", " ++ regText "e" b
  | .sld d a imm => "SLD " ++ regText "s" d ++ ", " ++ regText "p" a ++ ", " ++ toString imm.toNat
  | .sclr d => "SCLR " ++ regText "s" d
  | .slc d a => "SLC " ++ regText "e" d ++ ", " ++ regText "s" a
  | .scomb d imm => "SCOMB " ++ regText "p" d ++ ", " ++ toString imm.toNat

end Sys2Proof.Machine
end

