-- ==== Sys2Proof/Machine/Parameter.lean ====
section
/-! DEFINITION. The machine with `FIELD_POLY` as its argument (`00_scope.md` R6, R7, `92_eei_decisions.md` D1: "which the
model takes as an argument"). `exec` and `step` are these at the default. -/

namespace Sys2Proof.Machine

/-- The execution of one command in the field of a given polynomial. Only the five commands that multiply field elements
take it. -/
def execWith (fieldPoly : BitVec 9) (i : Instr) (s : State) : Out :=
  match i with
  | .nop => execNop s
  | .clrf => execClrf s
  | .rst => execRst s
  | .eli d imm => execEli d imm s
  | .eadd d a b => execEadd d a b s
  | .emul d a b => execEmulWith fieldPoly d a b s
  | .einv d a => execEinvWith fieldPoly d a s
  | .pclr d imm => execPclr d imm s
  | .psb d m imm => execPsb d m imm s
  | .padd d a b => execPadd d a b s
  | .pscl d a b => execPsclWith fieldPoly d a b s
  | .sld d a imm => execSld d a imm s
  | .sclr d => execSclr d s
  | .slc d a => execSlcWith fieldPoly d a s
  | .scomb d imm => execScombWith fieldPoly d imm s

/-- One step in the field of a given polynomial (`20_memory.md` R60, R62). -/
def stepWith (fieldPoly : BitVec 9) (s : State) : Out := takeActionBy (execWith fieldPoly) s

end Sys2Proof.Machine
end

