-- ==== Sys2Proof/Safety.lean ====
section
/-! DEFINITION. The terms claims about the GFU are stated in: the invariant of its state, what a command leaves alone, what
latching a fault means, and the shares a combine recovers a secret from. -/

namespace Sys2Proof.Machine

/-- A polynomial as every run keeps it: at most 64 coefficients, and 0x00 at and beyond the length (`10_state.md` R25,
R26). -/
abbrev Poly.Ok (q : Poly) : Prop :=
  q.len.toNat ≤ 64 ∧ ∀ n : Fin 64, q.len.toNat ≤ n.val → q.c[n.val] = 0

/-- A share slot as every run keeps it: a valid one has an index in 1..16 and a payload that is not empty, an empty one is
all zero (`10_state.md` R26, R29, R31). -/
abbrev Slot.Ok (sl : Slot) : Prop :=
  sl.payload.Ok ∧
  (sl.v = true → 1 ≤ sl.x.toNat ∧ sl.x.toNat ≤ 16 ∧ 1 ≤ sl.payload.len.toNat) ∧
  (sl.v = false → sl = Slot.empty)

/-- The fault registers as every run keeps them: all zero without a fault; with one, a cause in 1..3, the information of
that cause, and in `FCMD` a word that is no command for cause 1 and a command for causes 2 and 3 (`10_state.md` R34 to
R36, `60_exceptions.md` R180). -/
abbrev Gfu.LatchOk (g : Gfu) : Prop :=
  (g.statusF = false → g.fcause = 0 ∧ g.finfo = 0 ∧ g.fcmd = 0) ∧
  (g.statusF = true →
    (g.fcause = 0x01 ∧ g.finfo = 0 ∧ (decode g.fcmd).isCommand = false) ∨
    (g.fcause = 0x02 ∧ g.finfo = 0 ∧ (decode g.fcmd).isCommand = true) ∨
    (g.fcause = 0x03 ∧ g.finfo.toNat < 16 ∧ (decode g.fcmd).isCommand = true))

/-- The invariant of the unit's state. -/
abbrev Gfu.Ok (g : Gfu) : Prop :=
  (∀ r : PReg, (g.getP r).Ok) ∧ (∀ k : SlotNum, (g.getS k).Ok) ∧ g.LatchOk

/-- The invariant of the machine: that of its unit. The host's side is free. -/
abbrev State.Inv (s : State) : Prop := s.gfu.Ok

/-- A latched fault is explained by the state: issuing the word in `FCMD` again, with the latch cleared, gives this very
state (`60_exceptions.md` R185, R186: faults are precise, and nothing changes while one is latched). -/
def State.FaultExplained (s : State) : Prop :=
  s.gfu.statusF = true → hostCmd s.gfu.fcmd { s with gfu := s.gfu.clearFault } = .next s

/-- The host's side is unchanged. -/
def SameHost (s t : State) : Prop := t.pending = s.pending ∧ t.replies = s.replies

/-- The two flags of `STATUS` are unchanged. -/
def SameFlags (s t : State) : Prop := t.gfu.statusF = s.gfu.statusF ∧ t.gfu.statusLZ = s.gfu.statusLZ

/-- `FCAUSE`, `FINFO` and `FCMD` are unchanged. -/
def SameLatch (s t : State) : Prop :=
  t.gfu.fcause = s.gfu.fcause ∧ t.gfu.finfo = s.gfu.finfo ∧ t.gfu.fcmd = s.gfu.fcmd

/-- Every read-map byte outside the given addresses reads as before (`20_memory.md` R53). -/
def SameReads (changed : Addr → Prop) (s t : State) : Prop :=
  ∀ a : Addr, ¬ changed a → t.gfu.readByte a = s.gfu.readByte a

/-- The read-map address of E register `d` (`20_memory.md` R53). -/
def AddrOfE (d : EReg) (a : Addr) : Prop := a.toNat = d.val

/-- The read-map address of coefficient `n` of P register `d` (`20_memory.md` R53). -/
def AddrOfPByte (d : PReg) (n : Nat) (a : Addr) : Prop := a.toNat = 0x400 + 0x40 * d.val + n

/-- The read-map addresses of P register `d`: its length and its 64 bytes (`20_memory.md` R53). -/
def AddrOfP (d : PReg) (a : Addr) : Prop := a.toNat = 0x040 + d.val ∨ ∃ n, n < 64 ∧ AddrOfPByte d n a

/-- The read-map addresses of slot `k`: the byte of `VALID` that holds its bit, its length, its index and its 64 bytes
(`20_memory.md` R53). -/
def AddrOfS (k : SlotNum) (a : Addr) : Prop :=
  a.toNat = 0x018 + k.val / 8 ∨ a.toNat = 0x050 + k.val ∨ a.toNat = 0x060 + k.val ∨
    ∃ n, n < 64 ∧ a.toNat = 0x800 + 0x40 * k.val + n

/-- The read-map address of `STATUS` (`20_memory.md` R53). -/
def AddrOfStatus (a : Addr) : Prop := a.toNat = 0x010

/-- The read-map addresses of the fault latch: `STATUS`, `FCAUSE`, `FINFO`, `FCMD` (`20_memory.md` R53). -/
def AddrOfLatch (a : Addr) : Prop :=
  (0x010 ≤ a.toNat ∧ a.toNat ≤ 0x012) ∨ (0x014 ≤ a.toNat ∧ a.toNat ≤ 0x017)

/-- Nothing but E register `d` is written. -/
def OnlyE (d : EReg) (s t : State) : Prop :=
  (∀ r, r ≠ d → t.gfu.getE r = s.gfu.getE r) ∧ t.gfu.p = s.gfu.p ∧ t.gfu.s = s.gfu.s ∧
    SameFlags s t ∧ SameLatch s t ∧ SameHost s t ∧ SameReads (AddrOfE d) s t

/-- Nothing but P register `d` is written. -/
def OnlyP (d : PReg) (s t : State) : Prop :=
  (∀ r, r ≠ d → t.gfu.getP r = s.gfu.getP r) ∧ t.gfu.e = s.gfu.e ∧ t.gfu.s = s.gfu.s ∧
    SameFlags s t ∧ SameLatch s t ∧ SameHost s t ∧ SameReads (AddrOfP d) s t

/-- Nothing but P register `d` and `STATUS.LZ` is written. -/
def OnlyPAndLZ (d : PReg) (s t : State) : Prop :=
  (∀ r, r ≠ d → t.gfu.getP r = s.gfu.getP r) ∧ t.gfu.e = s.gfu.e ∧ t.gfu.s = s.gfu.s ∧
    t.gfu.statusF = s.gfu.statusF ∧ SameLatch s t ∧ SameHost s t ∧
    SameReads (fun a => AddrOfP d a ∨ AddrOfStatus a) s t

/-- Nothing but share slot `k` is written. -/
def OnlyS (k : SlotNum) (s t : State) : Prop :=
  (∀ j, j ≠ k → t.gfu.getS j = s.gfu.getS j) ∧ t.gfu.e = s.gfu.e ∧ t.gfu.p = s.gfu.p ∧
    SameFlags s t ∧ SameLatch s t ∧ SameHost s t ∧ SameReads (AddrOfS k) s t

/-- Nothing but the fault latch (`STATUS.F`, `FCAUSE`, `FINFO`, `FCMD`) is written. -/
def OnlyLatch (s t : State) : Prop :=
  t.gfu.e = s.gfu.e ∧ t.gfu.p = s.gfu.p ∧ t.gfu.s = s.gfu.s ∧ t.gfu.statusLZ = s.gfu.statusLZ ∧
    SameHost s t ∧ SameReads AddrOfLatch s t

/-- A fault is latched by the word `w` with a cause code and information, and nothing else changes
(`60_exceptions.md` R185). -/
def LatchesFault (w : Word) (code info : Byte) (s t : State) : Prop :=
  t.gfu.statusF = true ∧ t.gfu.fcause = code ∧ t.gfu.finfo = info ∧ t.gfu.fcmd = w ∧ OnlyLatch s t

/-- A word from its fields by the formula of `30_encoding.md` R76. -/
def fieldsWord (op : Byte) (d a b : Fin 16) (imm : Byte) : Word :=
  (op.setWidth 32 <<< 24) ||| (BitVec.ofNat 32 d.val <<< 20) ||| (BitVec.ofNat 32 a.val <<< 16) |||
    (BitVec.ofNat 32 b.val <<< 12) ||| imm.setWidth 32

/-- The word of PSB from its fields by the formula of `30_encoding.md` R76. -/
def fieldsWordXI (op : Byte) (d : Fin 16) (m imm : Byte) : Word :=
  (op.setWidth 32 <<< 24) ||| (BitVec.ofNat 32 d.val <<< 20) ||| (m.setWidth 32 <<< 12) ||| imm.setWidth 32

/-- The value at `x` of the polynomial over the field whose coefficients are listed from the constant term up
(`42_shamir.md` R154 speaks of such values; the unit has no operation that computes one). -/
def evalAt (x : Byte) : List Byte → Byte
  | [] => 0
  | k :: ks => gfAdd k (gfMul x (evalAt x ks))

/-- The (index, payload) pairs in the valid slots, in slot order (`42_shamir.md` R155). -/
def Gfu.shares (g : Gfu) : List (Byte × Poly) := g.workingSet.map fun k => ((g.getS k).x, (g.getS k).payload)

end Sys2Proof.Machine
end

