-- ==== Sys2Proof/Certificates/Slice0/Obligations.lean ====
section
/-! DEFINITION. The statements about the GFU, each from the spec's rules. They state and never prove. -/

open Sys2Proof Sys2Proof.Machine

/-! ### The encoding (`30_encoding.md`) -/

/-- Decoding an encoded command gives it back, with every operand at every value (R72, R75, R76). -/
def Obligations.DecodeEncodeGivesBackEveryCommand : Prop :=
  ∀ i : Instr, decode (encode i) = .command i

/-- A word that decodes to a command is that command's word: no two words are one command, and `FCMD`, which the model
fills by encoding, holds the very word executed (`30_encoding.md` R81; log entry 7). -/
def Obligations.EncodeDecodeGivesBackEveryWord : Prop :=
  ∀ (w : Word) (i : Instr), decode w = .command i → encode i = w

/-- The encoding formula (R76): the fields shifted to their places, the unused ones 0, and the three worked examples. -/
def Obligations.EncodingIsTheShiftFormula : Prop :=
  (encode .nop = fieldsWord 0x01 0 0 0 0 ∧ encode .clrf = fieldsWord 0x02 0 0 0 0 ∧
    encode .rst = fieldsWord 0x03 0 0 0 0) ∧
  (∀ (d : EReg) (imm : Byte), encode (.eli d imm) = fieldsWord 0x10 d 0 0 imm) ∧
  (∀ d a b : EReg, encode (.eadd d a b) = fieldsWord 0x11 d a b 0) ∧
  (∀ d a b : EReg, encode (.emul d a b) = fieldsWord 0x12 d a b 0) ∧
  (∀ d a : EReg, encode (.einv d a) = fieldsWord 0x13 d a 0 0) ∧
  (∀ (d : PReg) (imm : Byte), encode (.pclr d imm) = fieldsWord 0x20 d 0 0 imm) ∧
  (∀ (d : PReg) (m imm : Byte), encode (.psb d m imm) = fieldsWordXI 0x21 d m imm) ∧
  (∀ d a b : PReg, encode (.padd d a b) = fieldsWord 0x22 d a b 0) ∧
  (∀ (d a : PReg) (b : EReg), encode (.pscl d a b) = fieldsWord 0x23 d a b 0) ∧
  (∀ (d : SlotNum) (a : PReg) (imm : Byte), encode (.sld d a imm) = fieldsWord 0x30 d a 0 imm) ∧
  (∀ d : SlotNum, encode (.sclr d) = fieldsWord 0x31 d 0 0 0) ∧
  (∀ (d : EReg) (a : SlotNum), encode (.slc d a) = fieldsWord 0x32 d a 0 0) ∧
  (∀ (d : PReg) (imm : Byte), encode (.scomb d imm) = fieldsWord 0x33 d 0 0 imm) ∧
  encode (.emul 2 0 1) = 0x12201000 ∧ encode (.psb 1 2 0x1D) = 0x2110201D ∧ encode (.sld 9 1 3) = 0x30910003

/-- The decoder is the opcode map (R75): a word that matches a row is that row's command, at most one row matches, and a
word that matches no row is illegal (R80). -/
def Obligations.DecoderIsTheOpcodeMap : Prop :=
  (∀ (w : Word) (r : OpcodeRow), r ∈ opcodeTable → r.matchesWord w = true →
    ∃ i, decode w = .command i ∧ mnemonicOf i = r.mnemonic) ∧
  (∀ (w : Word) (r r' : OpcodeRow), r ∈ opcodeTable → r' ∈ opcodeTable → r.matchesWord w = true →
    r'.matchesWord w = true → r = r') ∧
  (∀ w : Word, legalWord w = false → ∃ why, decode w = .illegal why)

/-- Every word is one of the 15 commands or illegal, and the reserved opcodes are illegal whatever the other bits
(R81, R74). -/
def Obligations.ReservedOpcodesAreIllegal : Prop :=
  ∀ w : Word,
    ((∃ i, decode w = .command i) ∨ (∃ why, decode w = .illegal why)) ∧
    ((opField w = 0x00 ∨ (0x04 ≤ (opField w).toNat ∧ (opField w).toNat ≤ 0x0F) ∨
        (0x14 ≤ (opField w).toNat ∧ (opField w).toNat ≤ 0x1F) ∨
        (0x24 ≤ (opField w).toNat ∧ (opField w).toNat ≤ 0x2F) ∨
        (0x34 ≤ (opField w).toNat ∧ (opField w).toNat ≤ 0x3F) ∨ 0x40 ≤ (opField w).toNat) →
      decode w = .illegal .unassignedOpcode)

/-- A few words written out from the encoding, one or more of each family, and three illegal ones (R75, R80). -/
def Obligations.SampleWordsDecodeAsWritten : Prop :=
  decode 0x01000000 = .command .nop ∧ decode 0x03000000 = .command .rst ∧
  decode 0x10F000FF = .command (.eli 15 0xFF) ∧ decode 0x12FED000 = .command (.emul 15 14 13) ∧
  decode 0x13320000 = .command (.einv 3 2) ∧ decode 0x21F3F0FF = .command (.psb 15 63 0xFF) ∧
  decode 0x23205000 = .command (.pscl 2 0 5) ∧ decode 0x30910003 = .command (.sld 9 1 3) ∧
  decode 0x32790000 = .command (.slc 7 9) ∧ decode 0x33F00010 = .command (.scomb 15 16) ∧
  decode 0x00000000 = .illegal .unassignedOpcode ∧ decode 0x11501001 = .illegal .reservedBitSet ∧
  decode 0x21000100 = .illegal .reservedBitSet

/-- The pseudo-instructions assemble to the core commands' words, bit for bit: ESUB to EADD, PSUB to PADD, `EZERO ed` to
`ELI ed, 0`; every other mnemonic that assembles is that of its own row (R85). -/
def Obligations.PseudoInstructionsAssembleToCoreCommands : Prop :=
  (∀ ops, (instrOf "ESUB" ops).map encode = (instrOf "EADD" ops).map encode) ∧
  (∀ ops, (instrOf "PSUB" ops).map encode = (instrOf "PADD" ops).map encode) ∧
  (∀ d, (instrOf "EZERO" [d]).map encode = (instrOf "ELI" [d, ['0']]).map encode) ∧
  (∀ mnemonic ops i, instrOf mnemonic ops = some i → mnemonic = mnemonicOf i ∨
    (mnemonic, mnemonicOf i) ∈ [("ESUB", "EADD"), ("PSUB", "PADD"), ("EZERO", "ELI")])

/-! ### The field (`40_field.md`) -/

/-- Multiplication is the carry-less product modulo the reduction polynomial (R101): for every polynomial of degree 8 the
shift-and-xor loop is the remainder of the product, and the unit's product is the one for `FIELD_POLY`. Both sides read
bit i of a byte as the coefficient of z^i (log entry 2); the second clause is about the default number (log entry 1). -/
def Obligations.MultiplicationIsCarrylessProductModuloPolynomial : Prop :=
  (∀ poly : BitVec 9, poly.getLsbD 8 = true → ∀ a b : Byte,
    gfMulBy poly a b = polyRem poly (carrylessMul a b)) ∧
  (∀ a b : Byte, gfMul a b = polyRem Config.fieldPoly (carrylessMul a b))

/-- The table method gives the same products (R102). It rests on 0x02 being a generator for 0x11D, which the spec gives
from general knowledge (G4), and so on log entry 1. -/
def Obligations.TableMultiplicationAgrees : Prop := ∀ a b : Byte, gfMul a b = gfMulByTables a b

/-- The inverse fails at 0x00 alone, and is otherwise the one element whose product is 0x01, which is a^254 (R103). For the
model's `FIELD_POLY` (log entry 1). -/
def Obligations.InverseIsTheOneElementWithProductOne : Prop :=
  gfInv 0x00 = none ∧
  ∀ a : Byte, a ≠ 0x00 →
    ∃ b, gfInv a = some b ∧ b = gfPow a 254 ∧ gfMul a b = 0x01 ∧ ∀ c, gfMul a c = 0x01 → c = b

/-- The laws of the arithmetic (R108): a field, for the model's `FIELD_POLY` (log entry 1). -/
def Obligations.FieldLaws : Prop :=
  (∀ a b : Byte, gfAdd a b = gfAdd b a ∧ gfMul a b = gfMul b a) ∧
  (∀ a b c : Byte, gfAdd (gfAdd a b) c = gfAdd a (gfAdd b c) ∧ gfMul (gfMul a b) c = gfMul a (gfMul b c)) ∧
  (∀ a b c : Byte, gfMul a (gfAdd b c) = gfAdd (gfMul a b) (gfMul a c)) ∧
  (∀ a : Byte, gfAdd a 0x00 = a ∧ gfMul a 0x01 = a ∧ gfMul a 0x00 = 0x00 ∧ gfAdd a a = 0x00) ∧
  (∀ a b : Byte, gfMul a b = 0x00 → a = 0x00 ∨ b = 0x00) ∧
  (∀ a b : Byte, gfInv a = some b → gfMul a b = 0x01 ∧ gfInv b = some a)

/-! ### Field-element commands (`40_field.md`) -/

/-- ELI writes its immediate into `e[d]` and nothing else, in every state (R104). -/
def Obligations.EliWritesItsImmediate : Prop :=
  ∀ (d : EReg) (imm : Byte) (s : State),
    encode (.eli d imm) = 0x10000000 ||| (BitVec.ofNat 32 d.val <<< 20) ||| imm.setWidth 32 ∧
    ∃ t, exec (.eli d imm) s = .next t ∧ t.gfu.getE d = imm ∧ OnlyE d s t

/-- EADD writes the exclusive or of its sources into `e[d]` and nothing else, in every state; `d` may be a source (R105,
R100). -/
def Obligations.EaddWritesTheExclusiveOr : Prop :=
  ∀ (d a b : EReg) (s : State),
    encode (.eadd d a b) = fieldsWord 0x11 d a b 0 ∧
    ∃ t, exec (.eadd d a b) s = .next t ∧ t.gfu.getE d = s.gfu.getE a ^^^ s.gfu.getE b ∧ OnlyE d s t

/-- EMUL writes the field product of its sources into `e[d]` and nothing else, in every state; `d` may be a source; either
source 0x00 gives 0x00, either source 0x01 gives the other (R106). -/
def Obligations.EmulWritesTheFieldProduct : Prop :=
  ∀ (d a b : EReg) (s : State),
    encode (.emul d a b) = fieldsWord 0x12 d a b 0 ∧
    ∃ t, exec (.emul d a b) s = .next t ∧ t.gfu.getE d = gfMul (s.gfu.getE a) (s.gfu.getE b) ∧ OnlyE d s t ∧
      (s.gfu.getE a = 0x00 ∨ s.gfu.getE b = 0x00 → t.gfu.getE d = 0x00) ∧
      (s.gfu.getE a = 0x01 → t.gfu.getE d = s.gfu.getE b) ∧ (s.gfu.getE b = 0x01 → t.gfu.getE d = s.gfu.getE a)

/-- EINV: DivisionByZero with the source's number when the source is 0x00, `e[d]` kept; otherwise the inverse into `e[d]`
and nothing else, 0x01 being its own inverse; applied twice EINV restores the element (R107; the last two clauses are
about the model's `FIELD_POLY`, log entry 1). -/
def Obligations.EinvInvertsOrFaults : Prop :=
  ∀ (d a : EReg) (s : State),
    encode (.einv d a) = fieldsWord 0x13 d a 0 0 ∧
    (s.gfu.getE a = 0x00 →
      ∃ t, exec (.einv d a) s = .next t ∧ LatchesFault (encode (.einv d a)) 0x03 (BitVec.ofNat 8 a.val) s t) ∧
    (s.gfu.getE a ≠ 0x00 →
      ∃ t b, exec (.einv d a) s = .next t ∧ gfInv (s.gfu.getE a) = some b ∧ t.gfu.getE d = b ∧ OnlyE d s t ∧
        (s.gfu.getE a = 0x01 → t.gfu.getE d = 0x01) ∧
        ∃ u, exec (.einv d d) t = .next u ∧ u.gfu.getE d = s.gfu.getE a)

/-! ### Polynomial commands (`41_poly.md`) -/

/-- PCLR: `p[d]` becomes `imm` zero bytes, padding zero, and nothing else is written; IllegalOperand when `imm > 64`
(R121). -/
def Obligations.PclrClearsToTheLengthOrFaults : Prop :=
  ∀ (d : PReg) (imm : Byte) (s : State),
    encode (.pclr d imm) = fieldsWord 0x20 d 0 0 imm ∧
    (64 < imm.toNat →
      ∃ t, exec (.pclr d imm) s = .next t ∧ LatchesFault (encode (.pclr d imm)) 0x02 0x00 s t) ∧
    (imm.toNat ≤ 64 →
      ∃ t, exec (.pclr d imm) s = .next t ∧ (t.gfu.getP d).len.toNat = imm.toNat ∧
        (∀ n, n < 64 → (t.gfu.getP d).coeff n = 0x00) ∧ OnlyP d s t)

/-- PSB: the byte at position `m` becomes `imm`, the length and every other byte stay, and the read map changes at that one
byte; IllegalOperand when `m >= p[d].len` (R122). The premise on the register is the part of the invariant that bounds
a length by 64; it is asked only of the completing case. -/
def Obligations.PsbSetsOneByteOrFaults : Prop :=
  ∀ (d : PReg) (m imm : Byte) (s : State),
    encode (.psb d m imm) =
      0x21000000 ||| (BitVec.ofNat 32 d.val <<< 20) ||| (m.setWidth 32 <<< 12) ||| imm.setWidth 32 ∧
    ((s.gfu.getP d).len.toNat ≤ m.toNat →
      ∃ t, exec (.psb d m imm) s = .next t ∧ LatchesFault (encode (.psb d m imm)) 0x02 0x00 s t) ∧
    (m.toNat < (s.gfu.getP d).len.toNat → (s.gfu.getP d).len.toNat ≤ 64 →
      ∃ t, exec (.psb d m imm) s = .next t ∧ (t.gfu.getP d).coeff m.toNat = imm ∧
        (t.gfu.getP d).len = (s.gfu.getP d).len ∧
        (∀ n, n ≠ m.toNat → (t.gfu.getP d).coeff n = (s.gfu.getP d).coeff n) ∧
        OnlyP d s t ∧ SameReads (AddrOfPByte d m.toNat) s t)

/-- PADD: for each degree the coefficient is the sum of the sources' coefficients of that degree, the length is the larger
one, padding zero, and nothing else is written; `d` may be a source (R123). The premise, part of the invariant, bounds
the sources' lengths by 64. -/
def Obligations.PaddAddsByDegree : Prop :=
  ∀ (d a b : PReg) (s : State),
    (s.gfu.getP a).len.toNat ≤ 64 → (s.gfu.getP b).len.toNat ≤ 64 →
    encode (.padd d a b) = fieldsWord 0x22 d a b 0 ∧
    ∃ t, exec (.padd d a b) s = .next t ∧
      (t.gfu.getP d).len.toNat = max (s.gfu.getP a).len.toNat (s.gfu.getP b).len.toNat ∧
      (∀ k, k < (t.gfu.getP d).len.toNat →
        (t.gfu.getP d).coeff ((t.gfu.getP d).len.toNat - 1 - k) =
          (if k < (s.gfu.getP a).len.toNat then (s.gfu.getP a).coeff ((s.gfu.getP a).len.toNat - 1 - k) else 0x00) ^^^
          (if k < (s.gfu.getP b).len.toNat then (s.gfu.getP b).coeff ((s.gfu.getP b).len.toNat - 1 - k) else 0x00)) ∧
      (∀ n, (t.gfu.getP d).len.toNat ≤ n → (t.gfu.getP d).coeff n = 0x00) ∧ OnlyP d s t

/-- PSCL: every coefficient below the length is multiplied by the scalar `e[b]`, the length stays, padding zero, and nothing
else is written; `d` may be the source; scalar 0x00 gives zero bytes, scalar 0x01 copies (R124). -/
def Obligations.PsclScalesEachCoefficient : Prop :=
  ∀ (d a : PReg) (b : EReg) (s : State),
    encode (.pscl d a b) = fieldsWord 0x23 d a b 0 ∧
    ∃ t, exec (.pscl d a b) s = .next t ∧ (t.gfu.getP d).len = (s.gfu.getP a).len ∧
      (∀ n, n < (s.gfu.getP a).len.toNat →
        (t.gfu.getP d).coeff n = gfMul ((s.gfu.getP a).coeff n) (s.gfu.getE b)) ∧
      (∀ n, (s.gfu.getP a).len.toNat ≤ n → (t.gfu.getP d).coeff n = 0x00) ∧ OnlyP d s t ∧
      (s.gfu.getE b = 0x00 → ∀ n, (t.gfu.getP d).coeff n = 0x00) ∧
      (s.gfu.getE b = 0x01 → (s.gfu.getP a).Ok → t.gfu.getP d = s.gfu.getP a)

/-! ### Share table and combiner (`42_shamir.md`) -/

/-- SLD: an index outside 1..16, an empty payload or an occupied slot is IllegalOperand; otherwise slot `d` is valid with
the index and a copy of `p[a]`, and nothing else is written (R141). -/
def Obligations.SldLoadsAnEmptySlotOrFaults : Prop :=
  ∀ (d : SlotNum) (a : PReg) (imm : Byte) (s : State),
    encode (.sld d a imm) =
      0x30000000 ||| (BitVec.ofNat 32 d.val <<< 20) ||| (BitVec.ofNat 32 a.val <<< 16) ||| imm.setWidth 32 ∧
    (imm.toNat < 1 ∨ 16 < imm.toNat ∨ (s.gfu.getP a).len = 0 ∨ (s.gfu.getS d).v = true →
      ∃ t, exec (.sld d a imm) s = .next t ∧ LatchesFault (encode (.sld d a imm)) 0x02 0x00 s t) ∧
    (1 ≤ imm.toNat → imm.toNat ≤ 16 → (s.gfu.getP a).len ≠ 0 → (s.gfu.getS d).v = false →
      ∃ t, exec (.sld d a imm) s = .next t ∧ (t.gfu.getS d).v = true ∧ (t.gfu.getS d).x = imm ∧
        (t.gfu.getS d).payload.len = (s.gfu.getP a).len ∧
        (∀ n, n < 64 → (t.gfu.getS d).payload.coeff n = (s.gfu.getP a).coeff n) ∧ OnlyS d s t)

/-- SCLR empties slot `d` and writes nothing else, in every state; on an empty slot of a unit that meets the invariant it
changes nothing (R142). -/
def Obligations.SclrEmptiesTheSlot : Prop :=
  ∀ (d : SlotNum) (s : State),
    encode (.sclr d) = fieldsWord 0x31 d 0 0 0 ∧
    ∃ t, exec (.sclr d) s = .next t ∧ (t.gfu.getS d).v = false ∧ (t.gfu.getS d).x = 0x00 ∧
      (t.gfu.getS d).payload.len = 0 ∧ (∀ n, n < 64 → (t.gfu.getS d).payload.coeff n = 0x00) ∧ OnlyS d s t ∧
      ((s.gfu.getS d).v = false → (s.gfu.getS d).Ok → t = s)

/-- The working set: exactly the valid slots, in ascending slot number (R140). -/
def Obligations.WorkingSetIsTheValidSlotsAscending : Prop :=
  ∀ g : Gfu, (∀ k : SlotNum, k ∈ g.workingSet ↔ (g.getS k).v = true) ∧ g.workingSet.Pairwise (· < ·)

/-- Numerator and denominators as products from 0x01: N over all of K, D_i over the slots of K other than i, by slot number;
LC_i is N times the inverse of D_i and fails when D_i is zero; for one slot D_i is 0x01; a slot with the same index
makes D_i zero; the order of the factors does not matter (R150). -/
def Obligations.NumeratorAndDenominatorAreTheProducts : Prop :=
  ∀ (g : Gfu) (K : List SlotNum) (i : SlotNum),
    g.numerator K = (K.map fun k => (g.getS k).x).foldl (fun x y => gfMul x y) 0x01 ∧
    g.denominator K i = ((K.filter (· ≠ i)).map fun j => (g.getS j).x ^^^ (g.getS i).x).foldl (fun x y => gfMul x y) 0x01 ∧
    (g.denominator K i = 0x00 → g.lagrange K i = none) ∧
    (∀ b, gfInv (g.denominator K i) = some b → g.lagrange K i = some (gfMul (g.numerator K) b)) ∧
    g.denominator [i] i = 0x01 ∧
    ((∃ j ∈ K, j ≠ i ∧ (g.getS j).x = (g.getS i).x) → g.denominator K i = 0x00) ∧
    (∀ K' : List SlotNum, K.Perm K' → g.numerator K = g.numerator K' ∧ g.denominator K i = g.denominator K' i)

/-- A denominator is zero exactly when some other slot of K holds the same index (R153, which the spec derives). For the
model's `FIELD_POLY` (log entry 1). -/
def Obligations.ZeroDenominatorMeansDuplicateIndex : Prop :=
  ∀ (g : Gfu) (K : List SlotNum) (i : SlotNum),
    g.denominator K i = 0x00 ↔ ∃ j ∈ K, j ≠ i ∧ (g.getS j).x = (g.getS i).x

/-- SLC: IllegalOperand on an empty slot, DivisionByZero with the slot's number when its denominator is zero, otherwise the
Lagrange coefficient into `e[d]` and nothing else; with `a` the only valid slot that is `s[a].x`; the result is never
0x00 in a unit that meets the invariant (R151). The last two clauses use the model's `FIELD_POLY` (log entry 1). -/
def Obligations.SlcWritesTheLagrangeCoefficientOrFaults : Prop :=
  ∀ (d : EReg) (a : SlotNum) (s : State),
    encode (.slc d a) = fieldsWord 0x32 d a 0 0 ∧
    ((s.gfu.getS a).v = false →
      ∃ t, exec (.slc d a) s = .next t ∧ LatchesFault (encode (.slc d a)) 0x02 0x00 s t) ∧
    ((s.gfu.getS a).v = true → s.gfu.denominator s.gfu.workingSet a = 0x00 →
      ∃ t, exec (.slc d a) s = .next t ∧ LatchesFault (encode (.slc d a)) 0x03 (BitVec.ofNat 8 a.val) s t) ∧
    ((s.gfu.getS a).v = true → s.gfu.denominator s.gfu.workingSet a ≠ 0x00 →
      ∃ t b, exec (.slc d a) s = .next t ∧ gfInv (s.gfu.denominator s.gfu.workingSet a) = some b ∧
        t.gfu.getE d = gfMul (s.gfu.numerator s.gfu.workingSet) b ∧ OnlyE d s t ∧
        (s.gfu.workingSet = [a] → t.gfu.getE d = (s.gfu.getS a).x) ∧ (s.Inv → t.gfu.getE d ≠ 0x00))

/-- SCOMB: IllegalOperand for a threshold outside 1..16, a number of valid slots other than the threshold, or unequal
lengths; then DivisionByZero with the lowest slot whose denominator is zero; otherwise `p[d]` is the xor over the valid
slots of the payload bytes times the slot's Lagrange coefficient, with exactly L bytes, `STATUS.LZ` says whether its
leading byte is zero, and nothing else is written; one share alone gives its index times its payload (R152). -/
def Obligations.ScombCombinesTheSharesOrFaults : Prop :=
  ∀ (d : PReg) (imm : Byte) (s : State) (K : List SlotNum), s.gfu.workingSet = K →
    encode (.scomb d imm) = 0x33000000 ||| (BitVec.ofNat 32 d.val <<< 20) ||| imm.setWidth 32 ∧
    ((imm.toNat < 1 ∨ 16 < imm.toNat ∨ K.length ≠ imm.toNat ∨
        (∃ k ∈ K, ∃ j ∈ K, (s.gfu.getS k).payload.len ≠ (s.gfu.getS j).payload.len)) →
      ∃ t, exec (.scomb d imm) s = .next t ∧ LatchesFault (encode (.scomb d imm)) 0x02 0x00 s t) ∧
    (∀ L : BitVec 7, 1 ≤ imm.toNat → imm.toNat ≤ 16 → K.length = imm.toNat →
      (∀ k ∈ K, (s.gfu.getS k).payload.len = L) →
      (∀ i ∈ K, s.gfu.denominator K i = 0x00 → (∀ j ∈ K, j < i → s.gfu.denominator K j ≠ 0x00) →
        ∃ t, exec (.scomb d imm) s = .next t ∧
          LatchesFault (encode (.scomb d imm)) 0x03 (BitVec.ofNat 8 i.val) s t) ∧
      ((∀ i ∈ K, s.gfu.denominator K i ≠ 0x00) →
        ∃ (t : State) (lc : SlotNum → Byte), exec (.scomb d imm) s = .next t ∧
          (∀ i ∈ K, ∃ b, gfInv (s.gfu.denominator K i) = some b ∧ lc i = gfMul (s.gfu.numerator K) b) ∧
          (t.gfu.getP d).len = L ∧
          (∀ n, n < L.toNat → (t.gfu.getP d).coeff n =
            (K.map fun i => gfMul ((s.gfu.getS i).payload.coeff n) (lc i)).foldl (· ^^^ ·) 0x00) ∧
          (∀ n, L.toNat ≤ n → (t.gfu.getP d).coeff n = 0x00) ∧
          (t.gfu.statusLZ = true ↔ (t.gfu.getP d).coeff 0 = 0x00) ∧ OnlyPAndLZ d s t ∧
          (∀ k, K = [k] → ∀ n, n < L.toNat →
            (t.gfu.getP d).coeff n = gfMul (s.gfu.getS k).x ((s.gfu.getS k).payload.coeff n))))

/-- SCOMB may be issued again: after one that completes, the same SCOMB completes and changes nothing (R156, which the spec
derives; R152 corner case 3). -/
def Obligations.ScombIsRepeatable : Prop :=
  ∀ (d : PReg) (imm : Byte) (s t : State), s.gfu.statusF = false → exec (.scomb d imm) s = .next t →
    t.gfu.statusF = false → exec (.scomb d imm) t = .next t

/-- Order independence (R155, which the spec derives): two units whose valid slots hold the same (index, payload) pairs, in
whatever slots, combine to the same result or both fail with the same cause, and give the same Lagrange coefficient for
the same index. For the model's `FIELD_POLY` (log entry 1). -/
def Obligations.CombineIgnoresTheOrderOfShares : Prop :=
  ∀ s s' : State, s.gfu.shares.Perm s'.gfu.shares → s.gfu.statusF = false → s'.gfu.statusF = false →
    (∀ (d : PReg) (imm : Byte), ∃ t t', exec (.scomb d imm) s = .next t ∧ exec (.scomb d imm) s' = .next t' ∧
      t.gfu.statusF = t'.gfu.statusF ∧ (t.gfu.statusF = true → t.gfu.fcause = t'.gfu.fcause) ∧
      (t.gfu.statusF = false → t.gfu.getP d = t'.gfu.getP d ∧ t.gfu.statusLZ = t'.gfu.statusLZ)) ∧
    (∀ (d : EReg) (a a' : SlotNum), (s.gfu.getS a).v = true → (s'.gfu.getS a').v = true →
      (s.gfu.getS a).x = (s'.gfu.getS a').x →
      ∃ t t', exec (.slc d a) s = .next t ∧ exec (.slc d a') s' = .next t' ∧ t.gfu.statusF = t'.gfu.statusF ∧
        (t.gfu.statusF = false → t.gfu.getE d = t'.gfu.getE d))

/-- The combine recovers the secret (R154, R157, which the spec derives): if for each byte n the payload bytes of the valid
slots are g_n(x)·x⁻¹ for one polynomial g_n of degree below the threshold, with distinct nonzero indices, SCOMB
completes and byte n of its result is g_n(0). For the model's `FIELD_POLY` (log entry 1). -/
def Obligations.CombineRecoversTheSecret : Prop :=
  ∀ (d : PReg) (imm : Byte) (s : State) (K : List SlotNum) (L : BitVec 7) (g : Nat → List Byte),
    s.gfu.workingSet = K → 1 ≤ imm.toNat → imm.toNat ≤ 16 → K.length = imm.toNat →
    (∀ k ∈ K, (s.gfu.getS k).payload.len = L ∧ (s.gfu.getS k).x ≠ 0x00) →
    (∀ i ∈ K, ∀ j ∈ K, (s.gfu.getS i).x = (s.gfu.getS j).x → i = j) →
    (∀ n, n < L.toNat → (g n).length ≤ imm.toNat) →
    (∀ k ∈ K, ∀ n, n < L.toNat → ∃ b, gfInv (s.gfu.getS k).x = some b ∧
      (s.gfu.getS k).payload.coeff n = gfMul (evalAt (s.gfu.getS k).x (g n)) b) →
    ∃ t, exec (.scomb d imm) s = .next t ∧ t.gfu.statusF = s.gfu.statusF ∧ (t.gfu.getP d).len = L ∧
      ∀ n, n < L.toNat → (t.gfu.getP d).coeff n = (g n).headD 0x00

/-! ### System commands and reset (`43_system.md`, `10_state.md`, `70_reset_and_hazards.md`) -/

/-- NOP is the word 0x01000000 and changes nothing; any other word with its opcode is illegal (R170). -/
def Obligations.NopChangesNothing : Prop :=
  encode .nop = 0x01000000 ∧ (∀ s : State, exec .nop s = .next s) ∧
  ∀ w : Word, opField w = 0x01 → w ≠ 0x01000000 → decode w = .illegal .reservedBitSet

/-- CLRF is the word 0x02000000 and clears the four fault registers and nothing else, in every state; with no fault latched
in a unit that meets the invariant it changes nothing; after a command's fault it gives back exactly the state before
that command (R171). -/
def Obligations.ClrfClearsTheLatchAlone : Prop :=
  encode .clrf = 0x02000000 ∧
  ∀ s : State, ∃ t, exec .clrf s = .next t ∧ t.gfu.statusF = false ∧ t.gfu.fcause = 0x00 ∧ t.gfu.finfo = 0x00 ∧
    t.gfu.fcmd = 0x00000000 ∧ OnlyLatch s t ∧ (s.gfu.statusF = false → s.gfu.LatchOk → t = s) ∧
    ∀ (w : Word) (f : State), s.Inv → s.gfu.statusF = false → hostCmd w s = .next f → f.gfu.statusF = true →
      exec .clrf f = .next s

/-- RST is the word 0x03000000 and puts every piece of the unit's state at zero, in every state, a latched fault or not, and
leaves the host's side alone; it is the state power-on reset gives. The zeroing is R172, R40 and R210; that `pending` and
`replies` stay is the model's choice (DESIGN CHOICE, log entry 3). -/
def Obligations.RstZeroesEveryPieceOfState : Prop :=
  encode .rst = 0x03000000 ∧
  ∀ s : State, ∃ t, exec .rst s = .next t ∧ (∀ i, t.gfu.getE i = 0x00) ∧
    (∀ r, (t.gfu.getP r).len = 0 ∧ ∀ n, n < 64 → (t.gfu.getP r).coeff n = 0x00) ∧
    (∀ k, (t.gfu.getS k).v = false ∧ (t.gfu.getS k).x = 0x00 ∧ (t.gfu.getS k).payload.len = 0 ∧
      ∀ n, n < 64 → (t.gfu.getS k).payload.coeff n = 0x00) ∧
    t.gfu.statusF = false ∧ t.gfu.statusLZ = false ∧ t.gfu.fcause = 0x00 ∧ t.gfu.finfo = 0x00 ∧
    t.gfu.fcmd = 0x00000000 ∧ t.gfu = State.reset.gfu ∧ SameHost s t

/-- After reset every byte of the read map is 0x00: every register the host can see is zero (R40, R210, R211). -/
def Obligations.EveryReadAfterResetIsZero : Prop :=
  ∀ a : Addr, State.reset.gfu.readByte a = 0x00

/-! ### The host interface (`20_memory.md`) -/

/-- The read map, address by address (R53). -/
def Obligations.ReadMapShowsTheState : Prop :=
  ∀ g : Gfu,
    (∀ i : EReg, g.readByte (BitVec.ofNat 12 i.val) = g.getE i) ∧
    g.readByte 0x010 = 0#6 ++ BitVec.ofBool g.statusLZ ++ BitVec.ofBool g.statusF ∧
    g.readByte 0x011 = g.fcause ∧ g.readByte 0x012 = g.finfo ∧ g.readByte 0x013 = 0x00 ∧
    (∀ i, i < 4 → g.readByte (BitVec.ofNat 12 (0x014 + i)) = g.fcmd.extractLsb' (8 * i) 8) ∧
    (∀ k : SlotNum, k.val < 8 → (g.readByte 0x018).getLsbD k.val = (g.getS k).v) ∧
    (∀ k : SlotNum, 8 ≤ k.val → (g.readByte 0x019).getLsbD (k.val - 8) = (g.getS k).v) ∧
    (∀ n, 0x01A ≤ n → n ≤ 0x03F → g.readByte (BitVec.ofNat 12 n) = 0x00) ∧
    (∀ r : PReg, g.readByte (BitVec.ofNat 12 (0x040 + r.val)) = (g.getP r).len.setWidth 8) ∧
    (∀ k : SlotNum, g.readByte (BitVec.ofNat 12 (0x050 + k.val)) = (g.getS k).payload.len.setWidth 8) ∧
    (∀ k : SlotNum, g.readByte (BitVec.ofNat 12 (0x060 + k.val)) = (g.getS k).x) ∧
    (∀ n, 0x070 ≤ n → n ≤ 0x3FF → g.readByte (BitVec.ofNat 12 n) = 0x00) ∧
    (∀ (r : PReg) (n : Nat), n < 64 →
      g.readByte (BitVec.ofNat 12 (0x400 + 0x40 * r.val + n)) = (g.getP r).coeff n) ∧
    (∀ (k : SlotNum) (n : Nat), n < 64 →
      g.readByte (BitVec.ofNat 12 (0x800 + 0x40 * k.val + n)) = (g.getS k).payload.coeff n) ∧
    (∀ n, 0xC00 ≤ n → n ≤ 0xFFF → g.readByte (BitVec.ofNat 12 n) = 0x00)

/-- The read map shows all of the unit's state: two units that read the same at every address are the same (R39, R53). -/
def Obligations.ReadMapDeterminesTheState : Prop :=
  ∀ g g' : Gfu, (∀ a : Addr, g.readByte a = g'.readByte a) → g = g'

/-- A host read: byte i of the value is the read-map byte at `(addr + i) mod 4096`, nothing above the n bytes, at any
alignment; taking it changes nothing of the unit and answers the value. The value and the unchanged unit are R52; that it
is appended to the list `replies` is the model's choice (DESIGN CHOICE, log entry 5), as is that the taken action leaves
`pending` (DESIGN CHOICE, log entry 3). -/
def Obligations.HostReadAnswersLittleEndianAndChangesNothing : Prop :=
  (∀ (g : Gfu) (addr : Addr) (n : ReadWidth),
    (∀ i, i < n.bytes → (g.memRead addr n).extractLsb' (8 * i) 8 =
      g.readByte (BitVec.ofNat 12 ((addr.toNat + i) % 4096))) ∧
    (g.memRead addr n).toNat < 2 ^ (8 * n.bytes)) ∧
  (∀ (s : State) (addr : Addr) (n : ReadWidth) (rest : List HostAction), s.pending = .read addr n :: rest →
    step s = .next { s with pending := rest, replies := s.replies ++ [s.gfu.memRead addr n] })

/-- Bus writes: the 4-byte write at 0xFFC is the command of its bytes, least significant at the lowest address; every other
write changes no state and raises no fault; the port reads 0x00 (R51). -/
def Obligations.OnlyTheFourByteWriteAtThePortIsACommand : Prop :=
  (∀ (s : State) (b0 b1 b2 b3 : Byte) (rest : List HostAction),
    s.pending = .write 0xFFC [b0, b1, b2, b3] :: rest →
    step s = step { s with pending := .cmd (b3 ++ b2 ++ b1 ++ b0) :: rest }) ∧
  (∀ (s : State) (addr : Addr) (data : List Byte) (rest : List HostAction),
    s.pending = .write addr data :: rest → (addr ≠ 0xFFC ∨ data.length ≠ 4) →
    step s = .next { s with pending := rest }) ∧
  (∀ (g : Gfu) (a : Addr), 0xFFC ≤ a.toNat → g.readByte a = 0x00)

/-- The host changes the unit's state through commands alone (R201, which the spec derives; R50): a step that changes it
took a command word or the 4-byte write at the port. -/
def Obligations.OnlyCommandsChangeTheUnit : Prop :=
  ∀ s t : State, step s = .next t → t.gfu ≠ s.gfu →
    ∃ a rest, s.pending = a :: rest ∧ t.pending = rest ∧
      ((∃ w, a = .cmd w) ∨ ∃ data, a = .write 0xFFC data ∧ data.length = 4)

/-- The unit's state after an action is a function of its state before and the action alone: what the host was answered and
what it will issue later make no difference (R65, which the spec derives). -/
def Obligations.UnitDependsOnItsStateAndTheActionAlone : Prop :=
  ∀ (s s' t t' : State) (a : HostAction) (rest rest' : List HostAction), s.gfu = s'.gfu →
    s.pending = a :: rest → s'.pending = a :: rest' → step s = .next t → step s' = .next t' → t.gfu = t'.gfu

/-! ### One step and the fault latch (`60_exceptions.md`) -/

/-- A step takes the oldest pending action; a command word that decodes to a command, with no fault latched or the command
one that acknowledges it, is executed: the step is `exec` of it on the state without that action (R60, R62, R187). -/
def Obligations.StepRunsTheDecodedCommand : Prop :=
  ∀ (s : State) (w : Word) (i : Instr) (rest : List HostAction), s.pending = .cmd w :: rest →
    decode w = .command i → (s.gfu.statusF = false ∨ w = 0x02000000 ∨ w = 0x03000000) →
    step s = exec i { s with pending := rest }

/-- A word that matches no row, with no fault latched, raises IllegalCommand: the next state has `STATUS.F`, cause 0x01,
information 0x00 and the word latched, and nothing else changed (R80, R181). -/
def Obligations.IllegalWordRaisesIllegalCommand : Prop :=
  ∀ (s : State) (w : Word) (rest : List HostAction), s.pending = .cmd w :: rest → legalWord w = false →
    s.gfu.statusF = false →
    ∃ t, step s = .next t ∧ LatchesFault w 0x01 0x00 { s with pending := rest } t

/-- While a fault is latched every word but exactly 0x02000000 and 0x03000000 is dropped, legal or not: nothing of the unit
changes and no fault is raised; those two are executed as CLRF and RST (R186). -/
def Obligations.LatchedUnitDropsAllButClrfAndRst : Prop :=
  ∀ (s : State) (w : Word) (rest : List HostAction), s.pending = .cmd w :: rest → s.gfu.statusF = true →
    (w ≠ 0x02000000 → w ≠ 0x03000000 → step s = .next { s with pending := rest }) ∧
    (w = 0x02000000 → step s = exec .clrf { s with pending := rest }) ∧
    (w = 0x03000000 → step s = exec .rst { s with pending := rest })

/-- With no action pending a step changes nothing: the model's choice for a host that issues no further action (log entry
4; R50, R216). -/
def Obligations.IdleStepChangesNothing : Prop :=
  ∀ s : State, s.pending = [] → step s = .next s

/-- Every step answers a next state: every word in every state has a defined effect, and the unit has no stuck state (R81,
R189, R215). -/
def Obligations.EveryStepAnswersANextState : Prop :=
  ∀ s : State, ∃ t, step s = .next t

/-- Fault entry, over all words: a word that latches a fault writes the four fault registers, `FCMD` with the word itself,
and nothing else. It is no command and the cause is IllegalCommand, or it is one of the commands of R182 with
IllegalOperand, or one of those of R183 with DivisionByZero and a number below 16 (R180, R185). -/
def Obligations.FaultEntryIsPrecise : Prop :=
  ∀ (w : Word) (s t : State), s.gfu.statusF = false → hostCmd w s = .next t → t.gfu.statusF = true →
    (legalWord w = false ∧ LatchesFault w 0x01 0x00 s t) ∨
    (∃ i, decode w = .command i ∧
      ((LatchesFault w 0x02 0x00 s t ∧ mnemonicOf i ∈ ["PCLR", "PSB", "SLD", "SLC", "SCOMB"]) ∨
        ∃ info : Byte, info.toNat < 16 ∧ LatchesFault w 0x03 info s t ∧ mnemonicOf i ∈ ["EINV", "SLC", "SCOMB"]))

/-- Faults do not nest (R189, which the spec derives): from a latched unit a step leaves the unit as it is or clears the
latch. -/
def Obligations.FaultsDoNotNest : Prop :=
  ∀ s t : State, s.gfu.statusF = true → step s = .next t →
    t.gfu = s.gfu ∨ (t.gfu.statusF = false ∧ t.gfu.fcause = 0x00 ∧ t.gfu.finfo = 0x00 ∧ t.gfu.fcmd = 0x00000000)

/-! ### Whole-machine rules of the state (`10_state.md`) -/

/-- An E register changes only by ELI, EADD, EMUL, EINV or SLC with it as destination, or by RST (R22). -/
def Obligations.ERegisterWriters : Prop :=
  ∀ (i : Instr) (s t : State) (r : EReg), exec i s = .next t → t.gfu.getE r ≠ s.gfu.getE r →
    i = .rst ∨ (∃ imm, i = .eli r imm) ∨ (∃ a b, i = .eadd r a b) ∨ (∃ a b, i = .emul r a b) ∨
      (∃ a, i = .einv r a) ∨ ∃ a, i = .slc r a

/-- A P register changes only by PCLR, PSB, PADD, PSCL or SCOMB with it as destination, or by RST (R20). -/
def Obligations.PRegisterWriters : Prop :=
  ∀ (i : Instr) (s t : State) (r : PReg), exec i s = .next t → t.gfu.getP r ≠ s.gfu.getP r →
    i = .rst ∨ (∃ imm, i = .pclr r imm) ∨ (∃ m imm, i = .psb r m imm) ∨ (∃ a b, i = .padd r a b) ∨
      (∃ a b, i = .pscl r a b) ∨ ∃ imm, i = .scomb r imm

/-- A share slot is written only by SLD when it is empty, by SCLR and by RST: a share in a slot cannot be modified; SCLR and
RST leave it empty, with index, length and bytes zero (R31). -/
def Obligations.ShareSlotWriters : Prop :=
  (∀ (i : Instr) (s t : State) (k : SlotNum), exec i s = .next t → t.gfu.getS k ≠ s.gfu.getS k →
    (i = .rst ∧ t.gfu.getS k = Slot.empty) ∨ (i = .sclr k ∧ t.gfu.getS k = Slot.empty) ∨
      ∃ a imm, i = .sld k a imm ∧ (s.gfu.getS k).v = false) ∧
  Slot.empty.v = false ∧ Slot.empty.x = 0x00 ∧ Slot.empty.payload.len = 0 ∧
  (∀ n, n < 64 → Slot.empty.payload.coeff n = 0x00)

/-- The flags of `STATUS`: F is bit 0, LZ bit 1, bits 7:2 read 0; LZ changes only by an SCOMB that completes or by RST; F is
cleared only by CLRF and RST, and set only by a command that faults; a faulting command leaves LZ; no command reads LZ;
both are 0 after reset (R32). -/
def Obligations.StatusFlagWriters : Prop :=
  (∀ g : Gfu, (g.readByte 0x010).getLsbD 0 = g.statusF ∧ (g.readByte 0x010).getLsbD 1 = g.statusLZ ∧
    ∀ n, 2 ≤ n → (g.readByte 0x010).getLsbD n = false) ∧
  (∀ (i : Instr) (s t : State), exec i s = .next t → t.gfu.statusLZ ≠ s.gfu.statusLZ →
    i = .rst ∨ ((∃ d imm, i = .scomb d imm) ∧ t.gfu.statusF = s.gfu.statusF)) ∧
  (∀ (i : Instr) (s t : State), exec i s = .next t → s.gfu.statusF = true → t.gfu.statusF = false →
    i = .rst ∨ i = .clrf) ∧
  (∀ (i : Instr) (s t : State), exec i s = .next t → s.gfu.statusF = false → t.gfu.statusF = true →
    t.gfu.fcmd = encode i ∧ t.gfu.statusLZ = s.gfu.statusLZ) ∧
  (∀ (d : PReg) (imm : Byte) (s t : State), exec (.scomb d imm) s = .next t → s.gfu.statusF = false →
    t.gfu.statusF = false → (t.gfu.statusLZ = true ↔ (t.gfu.getP d).coeff 0 = 0x00)) ∧
  (∀ (i : Instr) (s t : State) (z : Bool), exec i s = .next t →
    ∃ t', exec i { s with gfu := s.gfu.setLZ z } = .next t' ∧
      t'.gfu = t.gfu.setLZ t'.gfu.statusLZ) ∧
  State.reset.gfu.statusF = false ∧ State.reset.gfu.statusLZ = false

/-! ### Invariants -/

/-- The invariant holds after reset: lengths at most 64, zero padding, empty slots all zero, valid slots with an index in
1..16 and a payload, consistent fault registers (R26, R29, R31, R34 to R36). -/
def Obligations.ResetMeetsTheInvariant : Prop := State.reset.Inv

/-- Every step from a state that meets the invariant gives one that does (R26, R29, R31, R34 to R36, R180). -/
def Obligations.EveryStepKeepsTheInvariant : Prop :=
  ∀ s t : State, s.Inv → step s = .next t → t.Inv

/-- A latched fault stays explained by the state: from a state that meets the invariant and whose latched fault, if any, is
what issuing the word in `FCMD` again would raise, every step gives such a state. So `FCAUSE`, `FINFO` and `FCMD`
describe the first fault truly for as long as it is latched (R185, R186, R35). -/
def Obligations.EveryStepKeepsTheFaultExplained : Prop :=
  ∀ s t : State, s.Inv → s.FaultExplained → step s = .next t → t.FaultExplained

/-! ### The parameter (`00_scope.md`) -/

/-- `FIELD_POLY` is an argument of the machine with default 0x11D (`00_scope.md` R6, `92_eei_decisions.md` D1; the number is
log entry 1): `exec` and `step` are the machine with the argument at its default, and every command but the five that
multiply field elements does the same under any other value. -/
def Obligations.FieldPolyIsAnArgumentWithADefault : Prop :=
  Config.fieldPoly = 0x11D ∧ (∀ (i : Instr) (s : State), exec i s = execWith Config.fieldPoly i s) ∧
  (∀ s : State, step s = stepWith Config.fieldPoly s) ∧
  ∀ (fieldPoly fieldPoly' : BitVec 9) (i : Instr) (s : State),
    mnemonicOf i ∉ ["EMUL", "EINV", "PSCL", "SLC", "SCOMB"] → execWith fieldPoly i s = execWith fieldPoly' i s

/-- In the field of any reduction polynomial with bit 8 set (`00_scope.md` R6, `92_eei_decisions.md` D1) EMUL, PSCL and SLC
complete with carry-less products modulo that polynomial (R101) and EINV with the 254th power in that field (R103), and
write nothing else. Both sides read bit i as the coefficient of z^i (log entry 2). -/
def Obligations.CommandsMultiplyInTheGivenField : Prop :=
  ∀ fieldPoly : BitVec 9, fieldPoly.getLsbD 8 = true → ∀ s : State,
    (∀ d a b : EReg, ∃ t, execWith fieldPoly (.emul d a b) s = .next t ∧
      t.gfu.getE d = polyRem fieldPoly (carrylessMul (s.gfu.getE a) (s.gfu.getE b)) ∧ OnlyE d s t) ∧
    (∀ d a : EReg, s.gfu.getE a ≠ 0x00 → ∃ t, execWith fieldPoly (.einv d a) s = .next t ∧
      t.gfu.getE d = gfPow (s.gfu.getE a) 254 fieldPoly ∧ OnlyE d s t) ∧
    (∀ (d a : PReg) (b : EReg), ∃ t, execWith fieldPoly (.pscl d a b) s = .next t ∧
      (t.gfu.getP d).len = (s.gfu.getP a).len ∧
      (∀ n, n < (s.gfu.getP a).len.toNat → (t.gfu.getP d).coeff n =
        polyRem fieldPoly (carrylessMul ((s.gfu.getP a).coeff n) (s.gfu.getE b))) ∧ OnlyP d s t) ∧
    (∀ (d : EReg) (a : SlotNum), (s.gfu.getS a).v = true →
      s.gfu.denominator s.gfu.workingSet a fieldPoly ≠ 0x00 →
      ∃ t, execWith fieldPoly (.slc d a) s = .next t ∧
        t.gfu.getE d = polyRem fieldPoly (carrylessMul (s.gfu.numerator s.gfu.workingSet fieldPoly)
          (gfPow (s.gfu.denominator s.gfu.workingSet a fieldPoly) 254 fieldPoly)) ∧ OnlyE d s t)
end

