-- ==== Sys2Proof/Laws/Encoding.lean ====
section
/-! SUPPORT. The fields of a word that was packed from fields. -/

namespace Sys2Proof

variable (op : Byte) (d a b : Fin 16) (m imm : Byte)

@[simp] theorem opField_packWord : opField (packWord op d a b imm) = op := by
  ext i hi
  simp only [opField, packWord, BitVec.getElem_extractLsb', BitVec.getLsbD_append]
  interval_cases i <;> simp

@[simp] theorem dField_packWord : dField (packWord op d a b imm) = d := by
  refine congrArg BitVec.toFin (a₂ := BitVec.ofFin (w := 4) d) (BitVec.eq_of_getLsbD_eq fun i hi => ?_)
  simp only [packWord, BitVec.getLsbD_extractLsb', BitVec.getLsbD_append]
  interval_cases i <;> simp

@[simp] theorem aField_packWord : aField (packWord op d a b imm) = a := by
  refine congrArg BitVec.toFin (a₂ := BitVec.ofFin (w := 4) a) (BitVec.eq_of_getLsbD_eq fun i hi => ?_)
  simp only [packWord, BitVec.getLsbD_extractLsb', BitVec.getLsbD_append]
  interval_cases i <;> simp

@[simp] theorem bField_packWord : bField (packWord op d a b imm) = b := by
  refine congrArg BitVec.toFin (a₂ := BitVec.ofFin (w := 4) b) (BitVec.eq_of_getLsbD_eq fun i hi => ?_)
  simp only [packWord, BitVec.getLsbD_extractLsb', BitVec.getLsbD_append]
  interval_cases i <;> simp

@[simp] theorem zField_packWord : zField (packWord op d a b imm) = 0 := by
  ext i hi
  simp only [zField, packWord, BitVec.getElem_extractLsb', BitVec.getLsbD_append]
  interval_cases i <;> simp

@[simp] theorem immField_packWord : immField (packWord op d a b imm) = imm := by
  ext i hi
  simp only [immField, packWord, BitVec.getElem_extractLsb', BitVec.getLsbD_append]
  interval_cases i <;> simp

@[simp] theorem opField_packWordXI : opField (packWordXI op d m imm) = op := by
  ext i hi
  simp only [opField, packWordXI, BitVec.getElem_extractLsb', BitVec.getLsbD_append]
  interval_cases i <;> simp

@[simp] theorem dField_packWordXI : dField (packWordXI op d m imm) = d := by
  refine congrArg BitVec.toFin (a₂ := BitVec.ofFin (w := 4) d) (BitVec.eq_of_getLsbD_eq fun i hi => ?_)
  simp only [packWordXI, BitVec.getLsbD_extractLsb', BitVec.getLsbD_append]
  interval_cases i <;> simp

@[simp] theorem mField_packWordXI : mField (packWordXI op d m imm) = m := by
  ext i hi
  simp only [mField, packWordXI, BitVec.getElem_extractLsb', BitVec.getLsbD_append]
  interval_cases i <;> simp

@[simp] theorem zField_packWordXI : zField (packWordXI op d m imm) = 0 := by
  ext i hi
  simp only [zField, packWordXI, BitVec.getElem_extractLsb', BitVec.getLsbD_append]
  interval_cases i <;> simp

@[simp] theorem immField_packWordXI : immField (packWordXI op d m imm) = imm := by
  ext i hi
  simp only [immField, packWordXI, BitVec.getElem_extractLsb', BitVec.getLsbD_append]
  interval_cases i <;> simp

/-- A word is its fields, packed again. -/
theorem packWord_fields (w : Word) (hz : zField w = 0) :
    packWord (opField w) (dField w) (aField w) (bField w) (immField w) = w := by
  have hz' : ∀ i, i < 4 → w.getLsbD (8 + i) = false := fun i hi => by
    have := congrArg (fun v : BitVec 4 => v.getLsbD i) hz
    simpa [zField, hi] using this
  have h8 := hz' 0 (by omega)
  have h9 := hz' 1 (by omega)
  have h10 := hz' 2 (by omega)
  have h11 := hz' 3 (by omega)
  refine BitVec.eq_of_getLsbD_eq fun i hi => ?_
  simp only [packWord, opField, dField, aField, bField, immField, BitVec.ofFin_toFin, BitVec.getLsbD_append,
    BitVec.getLsbD_extractLsb']
  interval_cases i <;> simp_all

/-- A word is its fields in format XI, packed again. -/
theorem packWordXI_fields (w : Word) (hz : zField w = 0) :
    packWordXI (opField w) (dField w) (mField w) (immField w) = w := by
  have hz' : ∀ i, i < 4 → w.getLsbD (8 + i) = false := fun i hi => by
    have := congrArg (fun v : BitVec 4 => v.getLsbD i) hz
    simpa [zField, hi] using this
  have h8 := hz' 0 (by omega)
  have h9 := hz' 1 (by omega)
  have h10 := hz' 2 (by omega)
  have h11 := hz' 3 (by omega)
  refine BitVec.eq_of_getLsbD_eq fun i hi => ?_
  simp only [packWordXI, opField, dField, mField, immField, BitVec.ofFin_toFin, BitVec.getLsbD_append,
    BitVec.getLsbD_extractLsb']
  interval_cases i <;> simp_all

/-- The packed word is the formula of `30_encoding.md` R76. -/
theorem packWord_eq_fieldsWord : packWord op d a b imm = Machine.fieldsWord op d a b imm := by
  have hd : ∀ k : Fin 16, BitVec.ofNat 32 k.val = (BitVec.ofFin (w := 4) k).setWidth 32 := by decide
  refine BitVec.eq_of_getLsbD_eq fun i hi => ?_
  simp only [packWord, Machine.fieldsWord, hd, BitVec.getLsbD_append, BitVec.getLsbD_or, BitVec.getLsbD_shiftLeft,
    BitVec.getLsbD_setWidth]
  interval_cases i <;> simp

/-- The packed word of format XI is the formula of `30_encoding.md` R76. -/
theorem packWordXI_eq_fieldsWordXI : packWordXI op d m imm = Machine.fieldsWordXI op d m imm := by
  have hd : ∀ k : Fin 16, BitVec.ofNat 32 k.val = (BitVec.ofFin (w := 4) k).setWidth 32 := by decide
  refine BitVec.eq_of_getLsbD_eq fun i hi => ?_
  simp only [packWordXI, Machine.fieldsWordXI, hd, BitVec.getLsbD_append, BitVec.getLsbD_or,
    BitVec.getLsbD_shiftLeft, BitVec.getLsbD_setWidth]
  interval_cases i <;> simp

end Sys2Proof
end

