-- ==== Sys2Proof/Laws/State.lean ====
section
/-! SUPPORT. One lemma per field per update of the unit's state, true by definition, so that no proof unfolds an update. -/

namespace Sys2Proof.Machine

variable (g : Gfu) (i : EReg) (r : PReg) (k : SlotNum) (b info : Byte) (q : Poly) (sl : Slot) (w : Word)
  (cause : FaultCause) (z : Bool)

@[simp] theorem Gfu.setE_p : (g.setE i b).p = g.p := rfl
@[simp] theorem Gfu.setE_s : (g.setE i b).s = g.s := rfl
@[simp] theorem Gfu.setE_statusF : (g.setE i b).statusF = g.statusF := rfl
@[simp] theorem Gfu.setE_statusLZ : (g.setE i b).statusLZ = g.statusLZ := rfl
@[simp] theorem Gfu.setE_fcause : (g.setE i b).fcause = g.fcause := rfl
@[simp] theorem Gfu.setE_finfo : (g.setE i b).finfo = g.finfo := rfl
@[simp] theorem Gfu.setE_fcmd : (g.setE i b).fcmd = g.fcmd := rfl

@[simp] theorem Gfu.setP_e : (g.setP r q).e = g.e := rfl
@[simp] theorem Gfu.setP_s : (g.setP r q).s = g.s := rfl
@[simp] theorem Gfu.setP_statusF : (g.setP r q).statusF = g.statusF := rfl
@[simp] theorem Gfu.setP_statusLZ : (g.setP r q).statusLZ = g.statusLZ := rfl
@[simp] theorem Gfu.setP_fcause : (g.setP r q).fcause = g.fcause := rfl
@[simp] theorem Gfu.setP_finfo : (g.setP r q).finfo = g.finfo := rfl
@[simp] theorem Gfu.setP_fcmd : (g.setP r q).fcmd = g.fcmd := rfl

@[simp] theorem Gfu.setS_e : (g.setS k sl).e = g.e := rfl
@[simp] theorem Gfu.setS_p : (g.setS k sl).p = g.p := rfl
@[simp] theorem Gfu.setS_statusF : (g.setS k sl).statusF = g.statusF := rfl
@[simp] theorem Gfu.setS_statusLZ : (g.setS k sl).statusLZ = g.statusLZ := rfl
@[simp] theorem Gfu.setS_fcause : (g.setS k sl).fcause = g.fcause := rfl
@[simp] theorem Gfu.setS_finfo : (g.setS k sl).finfo = g.finfo := rfl
@[simp] theorem Gfu.setS_fcmd : (g.setS k sl).fcmd = g.fcmd := rfl

@[simp] theorem Gfu.setLZ_e : (g.setLZ z).e = g.e := rfl
@[simp] theorem Gfu.setLZ_p : (g.setLZ z).p = g.p := rfl
@[simp] theorem Gfu.setLZ_s : (g.setLZ z).s = g.s := rfl
@[simp] theorem Gfu.setLZ_statusF : (g.setLZ z).statusF = g.statusF := rfl
@[simp] theorem Gfu.setLZ_statusLZ : (g.setLZ z).statusLZ = z := rfl
@[simp] theorem Gfu.setLZ_fcause : (g.setLZ z).fcause = g.fcause := rfl
@[simp] theorem Gfu.setLZ_finfo : (g.setLZ z).finfo = g.finfo := rfl
@[simp] theorem Gfu.setLZ_fcmd : (g.setLZ z).fcmd = g.fcmd := rfl

@[simp] theorem Gfu.enterFault_e : (g.enterFault w cause info).e = g.e := rfl
@[simp] theorem Gfu.enterFault_p : (g.enterFault w cause info).p = g.p := rfl
@[simp] theorem Gfu.enterFault_s : (g.enterFault w cause info).s = g.s := rfl
@[simp] theorem Gfu.enterFault_statusF : (g.enterFault w cause info).statusF = true := rfl
@[simp] theorem Gfu.enterFault_statusLZ : (g.enterFault w cause info).statusLZ = g.statusLZ := rfl
@[simp] theorem Gfu.enterFault_fcause : (g.enterFault w cause info).fcause = cause.code := rfl
@[simp] theorem Gfu.enterFault_finfo : (g.enterFault w cause info).finfo = info := rfl
@[simp] theorem Gfu.enterFault_fcmd : (g.enterFault w cause info).fcmd = w := rfl

@[simp] theorem Gfu.clearFault_e : g.clearFault.e = g.e := rfl
@[simp] theorem Gfu.clearFault_p : g.clearFault.p = g.p := rfl
@[simp] theorem Gfu.clearFault_s : g.clearFault.s = g.s := rfl
@[simp] theorem Gfu.clearFault_statusF : g.clearFault.statusF = false := rfl
@[simp] theorem Gfu.clearFault_statusLZ : g.clearFault.statusLZ = g.statusLZ := rfl
@[simp] theorem Gfu.clearFault_fcause : g.clearFault.fcause = 0 := rfl
@[simp] theorem Gfu.clearFault_finfo : g.clearFault.finfo = 0 := rfl
@[simp] theorem Gfu.clearFault_fcmd : g.clearFault.fcmd = 0 := rfl

@[simp] theorem Gfu.getE_setP : (g.setP r q).getE i = g.getE i := rfl
@[simp] theorem Gfu.getE_setS : (g.setS k sl).getE i = g.getE i := rfl
@[simp] theorem Gfu.getE_enterFault : (g.enterFault w cause info).getE i = g.getE i := rfl
@[simp] theorem Gfu.getE_clearFault : g.clearFault.getE i = g.getE i := rfl
@[simp] theorem Gfu.getE_setLZ : (g.setLZ z).getE i = g.getE i := rfl

@[simp] theorem Gfu.getP_setE : (g.setE i b).getP r = g.getP r := rfl
@[simp] theorem Gfu.getP_setS : (g.setS k sl).getP r = g.getP r := rfl
@[simp] theorem Gfu.getP_enterFault : (g.enterFault w cause info).getP r = g.getP r := rfl
@[simp] theorem Gfu.getP_clearFault : g.clearFault.getP r = g.getP r := rfl
@[simp] theorem Gfu.getP_setLZ : (g.setLZ z).getP r = g.getP r := rfl

@[simp] theorem Gfu.getS_setE : (g.setE i b).getS k = g.getS k := rfl
@[simp] theorem Gfu.getS_setP : (g.setP r q).getS k = g.getS k := rfl
@[simp] theorem Gfu.getS_enterFault : (g.enterFault w cause info).getS k = g.getS k := rfl
@[simp] theorem Gfu.getS_clearFault : g.clearFault.getS k = g.getS k := rfl
@[simp] theorem Gfu.getS_setLZ : (g.setLZ z).getS k = g.getS k := rfl

@[simp] theorem Gfu.getE_reset : Gfu.reset.getE i = 0 := by simp [Gfu.getE, Gfu.reset]
@[simp] theorem Gfu.getP_reset : Gfu.reset.getP r = Poly.empty := by simp [Gfu.getP, Gfu.reset]
@[simp] theorem Gfu.getS_reset : Gfu.reset.getS k = Slot.empty := by simp [Gfu.getS, Gfu.reset]

end Sys2Proof.Machine
end

