-- ==== Sys2Proof/Laws/Ops.lean ====
section
/-! SUPPORT. What the shared operations do, said once: reads after writes of registers and coefficients, taking a fault,
the working set, and the combiner's loop. -/

namespace Sys2Proof.Machine

theorem Gfu.getE_setE (g : Gfu) (d r : EReg) (b : Byte) :
    (g.setE d b).getE r = if r = d then b else g.getE r := by
  simp only [Gfu.getE, Gfu.setE, Vector.getElem_set, Fin.ext_iff, eq_comm]

theorem Gfu.getP_setP (g : Gfu) (d r : PReg) (q : Poly) :
    (g.setP d q).getP r = if r = d then q else g.getP r := by
  simp only [Gfu.getP, Gfu.setP, Vector.getElem_set, Fin.ext_iff, eq_comm]

theorem Gfu.getS_setS (g : Gfu) (d r : SlotNum) (sl : Slot) :
    (g.setS d sl).getS r = if r = d then sl else g.getS r := by
  simp only [Gfu.getS, Gfu.setS, Vector.getElem_set, Fin.ext_iff, eq_comm]

@[simp] theorem Gfu.getE_setE_same (g : Gfu) (d : EReg) (b : Byte) : (g.setE d b).getE d = b := by
  simp [Gfu.getE_setE]

@[simp] theorem Gfu.getP_setP_same (g : Gfu) (d : PReg) (q : Poly) : (g.setP d q).getP d = q := by
  simp [Gfu.getP_setP]

@[simp] theorem Gfu.getS_setS_same (g : Gfu) (d : SlotNum) (sl : Slot) : (g.setS d sl).getS d = sl := by
  simp [Gfu.getS_setS]

theorem Gfu.getE_setE_ne (g : Gfu) {d r : EReg} (b : Byte) (h : r ≠ d) : (g.setE d b).getE r = g.getE r := by
  simp [Gfu.getE_setE, h]

theorem Gfu.getP_setP_ne (g : Gfu) {d r : PReg} (q : Poly) (h : r ≠ d) : (g.setP d q).getP r = g.getP r := by
  simp [Gfu.getP_setP, h]

theorem Gfu.getS_setS_ne (g : Gfu) {d r : SlotNum} (sl : Slot) (h : r ≠ d) : (g.setS d sl).getS r = g.getS r := by
  simp [Gfu.getS_setS, h]

/-- Two units with the same registers, slots and latch are equal. -/
theorem Gfu.ext_get {g g' : Gfu} (he : ∀ i, g.getE i = g'.getE i) (hp : ∀ r, g.getP r = g'.getP r)
    (hs : ∀ k, g.getS k = g'.getS k) (hF : g.statusF = g'.statusF) (hLZ : g.statusLZ = g'.statusLZ)
    (hc : g.fcause = g'.fcause) (hi : g.finfo = g'.finfo) (hm : g.fcmd = g'.fcmd) : g = g' := by
  cases g
  cases g'
  simp only [Gfu.mk.injEq]
  refine ⟨Vector.ext fun n hn => he ⟨n, hn⟩, Vector.ext fun n hn => hp ⟨n, hn⟩, Vector.ext fun n hn => hs ⟨n, hn⟩,
    hF, hLZ, hc, hi, hm⟩

/-- There is no coefficient above position 63. -/
theorem Poly.coeff_of_ge (q : Poly) {n : Nat} (h : 64 ≤ n) : q.coeff n = 0 := by
  simp [Poly.coeff, Nat.not_lt.mpr h]

theorem Poly.coeff_of_lt (q : Poly) {n : Nat} (h : n < 64) : q.coeff n = q.c[n] := by simp [Poly.coeff, h]

/-- Two polynomials with the same length and the same bytes are equal. -/
theorem Poly.ext_coeff {q q' : Poly} (hl : q.len = q'.len) (hc : ∀ n, n < 64 → q.coeff n = q'.coeff n) : q = q' := by
  cases q
  cases q'
  simp only [Poly.mk.injEq]
  refine ⟨hl, Vector.ext fun n hn => ?_⟩
  simpa [Poly.coeff, hn] using hc n hn

@[simp] theorem Poly.len_build (len : BitVec 7) (f : Nat → Byte) : (Poly.build len f).len = len := rfl

theorem Poly.coeff_build (len : BitVec 7) (f : Nat → Byte) (n : Nat) :
    (Poly.build len f).coeff n = if n < 64 ∧ n < len.toNat then f n else 0 := by
  unfold Poly.coeff Poly.build
  split <;> simp_all

@[simp] theorem Poly.len_zeros (len : BitVec 7) : (Poly.zeros len).len = len := rfl

@[simp] theorem Poly.coeff_zeros (len : BitVec 7) (n : Nat) : (Poly.zeros len).coeff n = 0 := by
  unfold Poly.coeff Poly.zeros
  split <;> simp

@[simp] theorem Poly.len_empty : Poly.empty.len = 0 := rfl

@[simp] theorem Poly.coeff_empty (n : Nat) : Poly.empty.coeff n = 0 := Poly.coeff_zeros 0 n

@[simp] theorem Poly.len_setCoeff (q : Poly) (m : Nat) (b : Byte) : (q.setCoeff m b).len = q.len := by
  simp only [Poly.setCoeff]

theorem Poly.coeff_setCoeff (q : Poly) (m n : Nat) (b : Byte) :
    (q.setCoeff m b).coeff n = if n = m ∧ n < 64 then b else q.coeff n := by
  unfold Poly.coeff Poly.setCoeff
  by_cases hn : n < 64
  · simp [hn, Vector.getElem_setIfInBounds, eq_comm]
  · simp [hn]

@[simp] theorem Poly.len_add (qa qb : Poly) : (qa.add qb).len = maxLen qa.len qb.len := by
  rw [Poly.add, Poly.len_build]

@[simp] theorem Poly.len_scale (q : Poly) (k : Byte) (fieldPoly : BitVec 9) : (q.scale k fieldPoly).len = q.len := by
  rw [Poly.scale, Poly.len_build]

@[simp] theorem Poly.len_addTerm (acc y : Poly) (lc : Byte) (fieldPoly : BitVec 9) :
    (acc.addTerm y lc fieldPoly).len = acc.len := by
  rw [Poly.addTerm, Poly.len_build]

theorem maxLen_toNat (la lb : BitVec 7) : (maxLen la lb).toNat = max la.toNat lb.toNat := by
  unfold maxLen
  split <;> omega

@[simp] theorem finish_eq (s : State) (g : Gfu) : finish s g = .next { s with gfu := g } := rfl

/-- Taking a fault always answers a next state: the four fault registers written, the rest as it was
(`60_exceptions.md` R185). -/
@[simp] theorem raise_eq (w : Word) (cause : FaultCause) (info : Byte) (s : State) :
    raise w cause info s = .next { s with gfu := s.gfu.enterFault w cause info } := rfl

/-- The working set reads the slots alone. -/
theorem Gfu.workingSet_congr {g g' : Gfu} (h : g.s = g'.s) : g.workingSet = g'.workingSet := by
  simp [Gfu.workingSet, Gfu.getS, h]

/-- A completed combine loop has the accumulator's length. -/
theorem Gfu.len_of_combineLoop (g : Gfu) (K : List SlotNum) (fieldPoly : BitVec 9) :
    ∀ (rest : List SlotNum) (acc q : Poly), g.combineLoop K rest acc fieldPoly = .ok q → q.len = acc.len
  | [], acc, q, h => by
    simp only [Gfu.combineLoop, Except.ok.injEq] at h
    rw [h]
  | i :: rest, acc, q, h => by
    unfold Gfu.combineLoop at h
    split at h
    · cases h
    · exact (Gfu.len_of_combineLoop g K fieldPoly rest _ q h).trans (Poly.len_addTerm _ _ _ _)

/-- A combine loop fails at the first slot still to visit whose coefficient does not exist. -/
theorem Gfu.combineLoop_error (g : Gfu) (K : List SlotNum) (i : SlotNum) (fieldPoly : BitVec 9) :
    ∀ (rest : List SlotNum) (acc : Poly), g.combineLoop K rest acc fieldPoly = .error i →
      i ∈ rest ∧ g.lagrange K i fieldPoly = none
  | [], acc, h => by simp [Gfu.combineLoop] at h
  | j :: rest, acc, h => by
    unfold Gfu.combineLoop at h
    split at h
    · next hj =>
      cases h
      exact ⟨List.mem_cons_self, hj⟩
    · obtain ⟨hm, hl⟩ := Gfu.combineLoop_error g K i fieldPoly rest _ h
      exact ⟨List.mem_cons_of_mem _ hm, hl⟩

end Sys2Proof.Machine
end

