-- ==== Sys2Proof/Laws/Exec.lean ====
section
/-! SUPPORT. What executing one command can do, said once: it always answers a next state, it writes the unit alone, and
either a fault is latched or the command's own write has happened. -/

namespace Sys2Proof.Machine

/-- The write a command makes when it completes, by the kind of what it writes. -/
inductive Wrote (fieldPoly : BitVec 9) (g : Gfu) : Instr → Gfu → Prop where
  | nothing : Wrote fieldPoly g .nop g
  | cleared : Wrote fieldPoly g .clrf g.clearFault
  | reset : Wrote fieldPoly g .rst Gfu.reset
  | eli (d : EReg) (imm : Byte) : Wrote fieldPoly g (.eli d imm) (g.setE d imm)
  | eadd (d a b : EReg) : Wrote fieldPoly g (.eadd d a b) (g.setE d (gfAdd (g.getE a) (g.getE b)))
  | emul (d a b : EReg) : Wrote fieldPoly g (.emul d a b) (g.setE d (gfMul (g.getE a) (g.getE b) fieldPoly))
  | einv (d a : EReg) (v : Byte) (h : gfInv (g.getE a) fieldPoly = some v) : Wrote fieldPoly g (.einv d a) (g.setE d v)
  | pclr (d : PReg) (imm : Byte) (h : legalLength imm = true) :
      Wrote fieldPoly g (.pclr d imm) (g.setP d (Poly.zeros (lengthOf imm)))
  | psb (d : PReg) (m imm : Byte) (h : legalPosition (g.getP d) m = true) :
      Wrote fieldPoly g (.psb d m imm) (g.setP d ((g.getP d).setCoeff m.toNat imm))
  | padd (d a b : PReg) : Wrote fieldPoly g (.padd d a b) (g.setP d ((g.getP a).add (g.getP b)))
  | pscl (d a : PReg) (b : EReg) : Wrote fieldPoly g (.pscl d a b) (g.setP d ((g.getP a).scale (g.getE b) fieldPoly))
  | sld (d : SlotNum) (a : PReg) (imm : Byte) (hx : legalIndex imm = true) (hl : (g.getP a).len ≠ 0)
      (hv : (g.getS d).v = false) :
      Wrote fieldPoly g (.sld d a imm) (g.setS d { v := true, x := imm, payload := g.getP a })
  | sclr (d : SlotNum) : Wrote fieldPoly g (.sclr d) (g.setS d Slot.empty)
  | slc (d : EReg) (a : SlotNum) (lc : Byte) (hv : (g.getS a).v = true)
      (hlc : g.lagrange g.workingSet a fieldPoly = some lc) : Wrote fieldPoly g (.slc d a) (g.setE d lc)
  | scomb (d : PReg) (imm : Byte) (q : Poly) (ht : legalThreshold imm = true)
      (hn : g.workingSet.length = imm.toNat) (hl : g.unequalLengths g.workingSet = false)
      (hq : g.combine g.workingSet fieldPoly = .ok q) :
      Wrote fieldPoly g (.scomb d imm) ((g.setP d q).setLZ (leadingZero q))

/-- The faults a command can raise, with their information, by its operands. -/
inductive Raises (fieldPoly : BitVec 9) (g : Gfu) : Instr → FaultCause → Byte → Prop where
  | einv (d a : EReg) (h : gfInv (g.getE a) fieldPoly = none) : Raises fieldPoly g (.einv d a) .divisionByZero (infoOf a)
  | pclr (d : PReg) (imm : Byte) (h : legalLength imm = false) : Raises fieldPoly g (.pclr d imm) .illegalOperand 0
  | psb (d : PReg) (m imm : Byte) (h : legalPosition (g.getP d) m = false) :
      Raises fieldPoly g (.psb d m imm) .illegalOperand 0
  | sld (d : SlotNum) (a : PReg) (imm : Byte)
      (h : legalIndex imm = false ∨ (g.getP a).len = 0 ∨ (g.getS d).v = true) :
      Raises fieldPoly g (.sld d a imm) .illegalOperand 0
  | slcEmpty (d : EReg) (a : SlotNum) (h : (g.getS a).v = false) : Raises fieldPoly g (.slc d a) .illegalOperand 0
  | slcZero (d : EReg) (a : SlotNum) (hv : (g.getS a).v = true) (h : g.lagrange g.workingSet a fieldPoly = none) :
      Raises fieldPoly g (.slc d a) .divisionByZero (infoOf a)
  | scomb (d : PReg) (imm : Byte)
      (h : legalThreshold imm = false ∨ g.workingSet.length ≠ imm.toNat ∨
        g.unequalLengths g.workingSet = true) : Raises fieldPoly g (.scomb d imm) .illegalOperand 0
  | scombZero (d : PReg) (imm : Byte) (i : SlotNum) (ht : legalThreshold imm = true)
      (hn : g.workingSet.length = imm.toNat) (hl : g.unequalLengths g.workingSet = false)
      (h : g.combine g.workingSet fieldPoly = .error i) : Raises fieldPoly g (.scomb d imm) .divisionByZero (infoOf i)

/-- Executing a command: it completes with its own write, or it latches a fault, and in both cases answers a next state
whose host side is the one before. -/
theorem execWith_cases (fieldPoly : BitVec 9) (i : Instr) (s : State) :
    (∃ g, Wrote fieldPoly s.gfu i g ∧ execWith fieldPoly i s = .next { s with gfu := g }) ∨
    (∃ cause info, Raises fieldPoly s.gfu i cause info ∧
      execWith fieldPoly i s = .next { s with gfu := s.gfu.enterFault (encode i) cause info }) := by
  cases i with
  | nop => exact .inl ⟨_, .nothing, rfl⟩
  | clrf => exact .inl ⟨_, .cleared, rfl⟩
  | rst => exact .inl ⟨_, .reset, rfl⟩
  | eli d imm => exact .inl ⟨_, .eli d imm, rfl⟩
  | eadd d a b => exact .inl ⟨_, .eadd d a b, rfl⟩
  | emul d a b => exact .inl ⟨_, .emul d a b, rfl⟩
  | padd d a b => exact .inl ⟨_, .padd d a b, rfl⟩
  | pscl d a b => exact .inl ⟨_, .pscl d a b, rfl⟩
  | sclr d => exact .inl ⟨_, .sclr d, rfl⟩
  | einv d a =>
    simp only [execWith, execEinvWith]
    split
    · next h => exact .inr ⟨_, _, .einv d a h, rfl⟩
    · next b h => exact .inl ⟨_, .einv d a b h, rfl⟩
  | pclr d imm =>
    simp only [execWith, execPclr]
    split
    · next h => exact .inl ⟨_, .pclr d imm h, rfl⟩
    · next h => exact .inr ⟨_, _, .pclr d imm (by simpa using h), rfl⟩
  | psb d m imm =>
    simp only [execWith, execPsb]
    split
    · next h => exact .inl ⟨_, .psb d m imm h, rfl⟩
    · next h => exact .inr ⟨_, _, .psb d m imm (by simpa using h), rfl⟩
  | sld d a imm =>
    simp only [execWith, execSld]
    split
    · next h => exact .inr ⟨_, _, .sld d a imm (.inl (by simpa using h)), rfl⟩
    next hx =>
    split
    · next h => exact .inr ⟨_, _, .sld d a imm (.inr (.inl h)), rfl⟩
    next hl =>
    split
    · next h => exact .inr ⟨_, _, .sld d a imm (.inr (.inr h)), rfl⟩
    · next hv => exact .inl ⟨_, .sld d a imm (by simpa using hx) hl (by simpa using hv), rfl⟩
  | slc d a =>
    simp only [execWith, execSlcWith]
    split
    · next h => exact .inr ⟨_, _, .slcEmpty d a (by simpa using h), rfl⟩
    next hv =>
    split
    · next h => exact .inr ⟨_, _, .slcZero d a (by simpa using hv) h, rfl⟩
    · next lc h => exact .inl ⟨_, .slc d a lc (by simpa using hv) h, rfl⟩
  | scomb d imm =>
    simp only [execWith, execScombWith]
    split
    · next h => exact .inr ⟨_, _, .scomb d imm (.inl (by simpa using h)), rfl⟩
    next ht =>
    split
    · next h => exact .inr ⟨_, _, .scomb d imm (.inr (.inl h)), rfl⟩
    next hn =>
    split
    · next h => exact .inr ⟨_, _, .scomb d imm (.inr (.inr h)), rfl⟩
    next hl =>
    have ht' : legalThreshold imm = true := by simpa using ht
    have hn' : s.gfu.workingSet.length = imm.toNat := by simpa using hn
    have hl' : s.gfu.unequalLengths s.gfu.workingSet = false := by simpa using hl
    split
    · next i h => exact .inr ⟨_, _, .scombZero d imm i ht' hn' hl' h, rfl⟩
    · next q h => exact .inl ⟨_, .scomb d imm q ht' hn' hl' h, rfl⟩

/-- `exec` is the execution in the field of the default polynomial. -/
theorem exec_eq_execWith (i : Instr) (s : State) : exec i s = execWith Config.fieldPoly i s := by cases i <;> rfl

/-- `execWith_cases` for `exec`. -/
theorem exec_cases (i : Instr) (s : State) :
    (∃ g, Wrote Config.fieldPoly s.gfu i g ∧ exec i s = .next { s with gfu := g }) ∨
    (∃ cause info, Raises Config.fieldPoly s.gfu i cause info ∧
      exec i s = .next { s with gfu := s.gfu.enterFault (encode i) cause info }) :=
  exec_eq_execWith i s ▸ execWith_cases Config.fieldPoly i s

end Sys2Proof.Machine
end

