-- ==== Sys2Proof/Laws/Invariant.lean ====
section
/-! SUPPORT. The operations that write a register or a slot, against the invariant's parts. -/

namespace Sys2Proof.Machine

theorem Poly.ok_iff (q : Poly) : q.Ok ↔ q.len.toNat ≤ 64 ∧ ∀ n, n < 64 → q.len.toNat ≤ n → q.coeff n = 0 := by
  refine and_congr_right fun _ => ⟨fun h n hn hle => ?_, fun h n hle => ?_⟩
  · rw [Poly.coeff_of_lt q hn]; exact h ⟨n, hn⟩ hle
  · rw [← Poly.coeff_of_lt q n.isLt]; exact h n.val n.isLt hle

theorem Poly.ok_build {len : BitVec 7} (f : Nat → Byte) (h : len.toNat ≤ 64) : (Poly.build len f).Ok := by
  rw [Poly.ok_iff]
  refine ⟨by simpa using h, fun n _ hle => ?_⟩
  rw [Poly.coeff_build, if_neg]
  simp only [Poly.len_build] at hle
  omega

theorem Poly.ok_zeros {len : BitVec 7} (h : len.toNat ≤ 64) : (Poly.zeros len).Ok := by
  rw [Poly.ok_iff]
  exact ⟨by simpa using h, fun n _ _ => Poly.coeff_zeros len n⟩

theorem Poly.ok_empty : Poly.empty.Ok := Poly.ok_zeros (len := 0) (by decide)

theorem Slot.ok_empty : Slot.empty.Ok := ⟨Poly.ok_empty, by decide, fun _ => rfl⟩

theorem Gfu.setE_ok {g : Gfu} (d : EReg) (v : Byte) (h : g.Ok) : (g.setE d v).Ok := h

theorem Gfu.setLZ_ok {g : Gfu} (z : Bool) (h : g.Ok) : (g.setLZ z).Ok := h

theorem Gfu.setP_ok {g : Gfu} (d : PReg) {q : Poly} (h : g.Ok) (hq : q.Ok) : (g.setP d q).Ok := by
  refine ⟨fun r => ?_, h.2.1, h.2.2⟩
  rw [Gfu.getP_setP]
  split
  · exact hq
  · exact h.1 r

theorem Gfu.setS_ok {g : Gfu} (k : SlotNum) {sl : Slot} (h : g.Ok) (hs : sl.Ok) : (g.setS k sl).Ok := by
  refine ⟨h.1, fun j => ?_, h.2.2⟩
  rw [Gfu.getS_setS]
  split
  · exact hs
  · exact h.2.1 j

end Sys2Proof.Machine
end

