-- ==== Sys2Proof/Laws/Operands.lean ====
section
/-! SUPPORT. The operand checks as inequalities, and the inverse by the two cases of its operand. -/

namespace Sys2Proof.Machine

theorem legalLength_iff (imm : Byte) : legalLength imm = true ↔ imm.toNat ≤ 64 := by
  simp [legalLength, Config.lMax]

theorem legalIndex_iff (imm : Byte) : legalIndex imm = true ↔ 1 ≤ imm.toNat ∧ imm.toNat ≤ 16 := by
  simp [legalIndex, Config.xMin, Config.xMax]

theorem legalThreshold_iff (imm : Byte) : legalThreshold imm = true ↔ 1 ≤ imm.toNat ∧ imm.toNat ≤ 16 := by
  simp [legalThreshold, Config.tMin, Config.tMax]

theorem legalPosition_iff (q : Poly) (m : Byte) : legalPosition q m = true ↔ m.toNat < q.len.toNat := by
  simp [legalPosition]

theorem lengthOf_toNat {imm : Byte} (h : imm.toNat ≤ 64) : (lengthOf imm).toNat = imm.toNat := by
  simp only [lengthOf, BitVec.toNat_setWidth]
  omega

@[simp] theorem gfInv_zero (fieldPoly : BitVec 9) : gfInv 0 fieldPoly = none := by simp [gfInv]

theorem gfInv_of_ne {a : Byte} (fieldPoly : BitVec 9) (h : a ≠ 0) : gfInv a fieldPoly = some (gfPow a 254 fieldPoly) :=
  if_neg h

theorem gfInv_eq_none {a : Byte} {fieldPoly : BitVec 9} : gfInv a fieldPoly = none ↔ a = 0 := by simp [gfInv]

theorem infoOf_toNat (k : Fin 16) : (infoOf k).toNat = k.val := by
  simp only [infoOf, BitVec.toNat_ofNat]
  omega

end Sys2Proof.Machine
end

