-- ==== Sys2Proof/Laws/PerInstr.lean ====
section
/-! SUPPORT. The per-instruction family `EncodedFields`: the encoded word of every command carries its row's opcode and its
operands in the fields its format gives them, and zero in the fields its format leaves unused. -/

namespace Sys2Proof.Laws.EncodedFields

/-- The fields of a command's word (`30_encoding.md` R71, R75, R76). -/
def Statement (i : Instr) : Prop :=
  zField (encode i) = 0 ∧
  match i with
  | .nop =>
    opField (encode .nop) = 0x01 ∧
      dField (encode .nop) = 0 ∧
      aField (encode .nop) = 0 ∧
      bField (encode .nop) = 0 ∧
      immField (encode .nop) = 0
  | .clrf =>
    opField (encode .clrf) = 0x02 ∧
      dField (encode .clrf) = 0 ∧
      aField (encode .clrf) = 0 ∧
      bField (encode .clrf) = 0 ∧
      immField (encode .clrf) = 0
  | .rst =>
    opField (encode .rst) = 0x03 ∧
      dField (encode .rst) = 0 ∧
      aField (encode .rst) = 0 ∧
      bField (encode .rst) = 0 ∧
      immField (encode .rst) = 0
  | .eli d imm =>
    opField (encode (.eli d imm)) = 0x10 ∧
      dField (encode (.eli d imm)) = d ∧
      aField (encode (.eli d imm)) = 0 ∧
      bField (encode (.eli d imm)) = 0 ∧
      immField (encode (.eli d imm)) = imm
  | .eadd d a b =>
    opField (encode (.eadd d a b)) = 0x11 ∧
      dField (encode (.eadd d a b)) = d ∧
      aField (encode (.eadd d a b)) = a ∧
      bField (encode (.eadd d a b)) = b ∧
      immField (encode (.eadd d a b)) = 0
  | .emul d a b =>
    opField (encode (.emul d a b)) = 0x12 ∧
      dField (encode (.emul d a b)) = d ∧
      aField (encode (.emul d a b)) = a ∧
      bField (encode (.emul d a b)) = b ∧
      immField (encode (.emul d a b)) = 0
  | .einv d a =>
    opField (encode (.einv d a)) = 0x13 ∧
      dField (encode (.einv d a)) = d ∧
      aField (encode (.einv d a)) = a ∧
      bField (encode (.einv d a)) = 0 ∧
      immField (encode (.einv d a)) = 0
  | .pclr d imm =>
    opField (encode (.pclr d imm)) = 0x20 ∧
      dField (encode (.pclr d imm)) = d ∧
      aField (encode (.pclr d imm)) = 0 ∧
      bField (encode (.pclr d imm)) = 0 ∧
      immField (encode (.pclr d imm)) = imm
  | .psb d m imm =>
    opField (encode (.psb d m imm)) = 0x21 ∧
      dField (encode (.psb d m imm)) = d ∧
      mField (encode (.psb d m imm)) = m ∧
      immField (encode (.psb d m imm)) = imm
  | .padd d a b =>
    opField (encode (.padd d a b)) = 0x22 ∧
      dField (encode (.padd d a b)) = d ∧
      aField (encode (.padd d a b)) = a ∧
      bField (encode (.padd d a b)) = b ∧
      immField (encode (.padd d a b)) = 0
  | .pscl d a b =>
    opField (encode (.pscl d a b)) = 0x23 ∧
      dField (encode (.pscl d a b)) = d ∧
      aField (encode (.pscl d a b)) = a ∧
      bField (encode (.pscl d a b)) = b ∧
      immField (encode (.pscl d a b)) = 0
  | .sld d a imm =>
    opField (encode (.sld d a imm)) = 0x30 ∧
      dField (encode (.sld d a imm)) = d ∧
      aField (encode (.sld d a imm)) = a ∧
      bField (encode (.sld d a imm)) = 0 ∧
      immField (encode (.sld d a imm)) = imm
  | .sclr d =>
    opField (encode (.sclr d)) = 0x31 ∧
      dField (encode (.sclr d)) = d ∧
      aField (encode (.sclr d)) = 0 ∧
      bField (encode (.sclr d)) = 0 ∧
      immField (encode (.sclr d)) = 0
  | .slc d a =>
    opField (encode (.slc d a)) = 0x32 ∧
      dField (encode (.slc d a)) = d ∧
      aField (encode (.slc d a)) = a ∧
      bField (encode (.slc d a)) = 0 ∧
      immField (encode (.slc d a)) = 0
  | .scomb d imm =>
    opField (encode (.scomb d imm)) = 0x33 ∧
      dField (encode (.scomb d imm)) = d ∧
      aField (encode (.scomb d imm)) = 0 ∧
      bField (encode (.scomb d imm)) = 0 ∧
      immField (encode (.scomb d imm)) = imm

theorem nop : Statement .nop := by simp [Statement, encode]

theorem clrf : Statement .clrf := by simp [Statement, encode]

theorem rst : Statement .rst := by simp [Statement, encode]

theorem eli (d : EReg) (imm : Byte) : Statement (.eli d imm) := by simp [Statement, encode]

theorem eadd (d a b : EReg) : Statement (.eadd d a b) := by simp [Statement, encode]

theorem emul (d a b : EReg) : Statement (.emul d a b) := by simp [Statement, encode]

theorem einv (d a : EReg) : Statement (.einv d a) := by simp [Statement, encode]

theorem pclr (d : PReg) (imm : Byte) : Statement (.pclr d imm) := by simp [Statement, encode]

theorem psb (d : PReg) (m imm : Byte) : Statement (.psb d m imm) := by simp [Statement, encode]

theorem padd (d a b : PReg) : Statement (.padd d a b) := by simp [Statement, encode]

theorem pscl (d a : PReg) (b : EReg) : Statement (.pscl d a b) := by simp [Statement, encode]

theorem sld (d : SlotNum) (a : PReg) (imm : Byte) : Statement (.sld d a imm) := by simp [Statement, encode]

theorem sclr (d : SlotNum) : Statement (.sclr d) := by simp [Statement, encode]

theorem slc (d : EReg) (a : SlotNum) : Statement (.slc d a) := by simp [Statement, encode]

theorem scomb (d : PReg) (imm : Byte) : Statement (.scomb d imm) := by simp [Statement, encode]

end Sys2Proof.Laws.EncodedFields
end

