-- ==== Sys2Proof/Laws/ReadMap.lean ====
section
/-! SUPPORT. What a write of one register, one slot or the fault latch leaves alone, in the registers and in the read map. -/

namespace Sys2Proof.Machine

theorem Gfu.statusByte_congr {g g' : Gfu} (hF : g'.statusF = g.statusF) (hLZ : g'.statusLZ = g.statusLZ) :
    g'.statusByte = g.statusByte := by simp [Gfu.statusByte, hF, hLZ]

theorem Gfu.validByte_congr {g g' : Gfu} {base : Nat}
    (h : ∀ i : Fin 8, (g'.getS (Fin.ofNat 16 (base + i.val))).v = (g.getS (Fin.ofNat 16 (base + i.val))).v) :
    g'.validByte base = g.validByte base := congrArg BitVec.ofFnLE (funext h)

/-- The read map, region by region: two units that agree on the piece of state an address shows read the same there
(`20_memory.md` R53). -/
theorem Gfu.readByte_congr {g g' : Gfu} (a : Addr)
    (hE : ∀ r : EReg, a.toNat = r.val → g'.getE r = g.getE r)
    (hStatus : a.toNat = 0x010 → g'.statusByte = g.statusByte)
    (hCause : a.toNat = 0x011 → g'.fcause = g.fcause)
    (hInfo : a.toNat = 0x012 → g'.finfo = g.finfo)
    (hCmd : 0x014 ≤ a.toNat → a.toNat ≤ 0x017 → g'.fcmd = g.fcmd)
    (hV0 : a.toNat = 0x018 → g'.validByte 0 = g.validByte 0)
    (hV8 : a.toNat = 0x019 → g'.validByte 8 = g.validByte 8)
    (hPLen : ∀ r : PReg, a.toNat = 0x040 + r.val → (g'.getP r).len = (g.getP r).len)
    (hSLen : ∀ k : SlotNum, a.toNat = 0x050 + k.val → (g'.getS k).payload.len = (g.getS k).payload.len)
    (hSX : ∀ k : SlotNum, a.toNat = 0x060 + k.val → (g'.getS k).x = (g.getS k).x)
    (hP : ∀ (r : PReg) (n : Nat), n < 64 → a.toNat = 0x400 + 0x40 * r.val + n →
      (g'.getP r).coeff n = (g.getP r).coeff n)
    (hS : ∀ (k : SlotNum) (n : Nat), n < 64 → a.toNat = 0x800 + 0x40 * k.val + n →
      (g'.getS k).payload.coeff n = (g.getS k).payload.coeff n) :
    g'.readByte a = g.readByte a := by
  unfold Gfu.readByte
  refine ite_congr rfl (fun h => hE _ (by rw [Fin.val_ofNat]; omega)) fun _ => ?_
  refine ite_congr rfl hStatus fun _ => ?_
  refine ite_congr rfl hCause fun _ => ?_
  refine ite_congr rfl hInfo fun _ => ?_
  refine ite_congr rfl (fun _ => rfl) fun _ => ?_
  refine ite_congr rfl (fun _ => by rw [hCmd (by omega) (by omega)]) fun _ => ?_
  refine ite_congr rfl hV0 fun _ => ?_
  refine ite_congr rfl hV8 fun _ => ?_
  refine ite_congr rfl (fun _ => rfl) fun _ => ?_
  refine ite_congr rfl (fun _ => by rw [hPLen _ (by rw [Fin.val_ofNat]; omega)]) fun _ => ?_
  refine ite_congr rfl (fun _ => by rw [hSLen _ (by rw [Fin.val_ofNat]; omega)]) fun _ => ?_
  refine ite_congr rfl (fun _ => hSX _ (by rw [Fin.val_ofNat]; omega)) fun _ => ?_
  refine ite_congr rfl (fun _ => rfl) fun _ => ?_
  refine ite_congr rfl (fun _ => hP _ _ (by omega) (by rw [Fin.val_ofNat]; omega)) fun _ => ?_
  exact ite_congr rfl (fun _ => hS _ _ (by omega) (by rw [Fin.val_ofNat]; omega)) fun _ => rfl

/-- Outside an E register's own address the read map does not see a write of it. -/
theorem Gfu.readByte_setE (g : Gfu) (d : EReg) (v : Byte) (a : Addr) (h : ¬ AddrOfE d a) :
    (g.setE d v).readByte a = g.readByte a :=
  Gfu.readByte_congr a (fun r hr => g.getE_setE_ne v fun he => h (by rw [AddrOfE, hr, he]))
    (fun _ => rfl) (fun _ => rfl) (fun _ => rfl) (fun _ _ => rfl) (fun _ => rfl) (fun _ => rfl)
    (fun _ _ => rfl) (fun _ _ => rfl) (fun _ _ => rfl) (fun _ _ _ _ => rfl) (fun _ _ _ _ => rfl)

/-- Outside a P register's own addresses the read map does not see a write of it. -/
theorem Gfu.readByte_setP (g : Gfu) (d : PReg) (q : Poly) (a : Addr) (h : ¬ AddrOfP d a) :
    (g.setP d q).readByte a = g.readByte a :=
  Gfu.readByte_congr a (fun _ _ => rfl)
    (fun _ => rfl) (fun _ => rfl) (fun _ => rfl) (fun _ _ => rfl) (fun _ => rfl) (fun _ => rfl)
    (fun r hr => by rw [g.getP_setP_ne q fun he => h (.inl (by rw [hr, he]))])
    (fun _ _ => rfl) (fun _ _ => rfl)
    (fun r n hn hr => by rw [g.getP_setP_ne q fun he => h (.inr ⟨n, hn, by rw [AddrOfPByte, hr, he]⟩)])
    (fun _ _ _ _ => rfl)

/-- A write of one coefficient is seen by the read map at that coefficient's address alone. -/
theorem Gfu.readByte_setCoeff (g : Gfu) (d : PReg) (m : Nat) (v : Byte) (a : Addr) (h : ¬ AddrOfPByte d m a) :
    (g.setP d ((g.getP d).setCoeff m v)).readByte a = g.readByte a :=
  Gfu.readByte_congr a (fun _ _ => rfl)
    (fun _ => rfl) (fun _ => rfl) (fun _ => rfl) (fun _ _ => rfl) (fun _ => rfl) (fun _ => rfl)
    (fun r _ => by
      rw [Gfu.getP_setP]
      split
      · next hd => rw [hd, Poly.len_setCoeff]
      · rfl)
    (fun _ _ => rfl) (fun _ _ => rfl)
    (fun r n _ hr => by
      rw [Gfu.getP_setP]
      split
      · next hd => rw [Poly.coeff_setCoeff, hd, if_neg fun hm => h (by rw [AddrOfPByte, hr, hd, hm.1])]
      · rfl)
    (fun _ _ _ _ => rfl)

/-- Outside a slot's own addresses the read map does not see a write of it. -/
theorem Gfu.readByte_setS (g : Gfu) (d : SlotNum) (sl : Slot) (a : Addr) (h : ¬ AddrOfS d a) :
    (g.setS d sl).readByte a = g.readByte a := by
  have hv : ∀ b, ¬ (b ≤ d.val ∧ d.val < b + 8) → b + 8 ≤ 16 → (g.setS d sl).validByte b = g.validByte b := by
    intro b hb h8
    refine Gfu.validByte_congr fun i => ?_
    rw [Gfu.getS_setS_ne]
    intro he
    have := congrArg Fin.val he
    rw [Fin.val_ofNat] at this
    omega
  refine Gfu.readByte_congr a (fun _ _ => rfl)
    (fun _ => rfl) (fun _ => rfl) (fun _ => rfl) (fun _ _ => rfl)
    (fun ha => hv 0 (fun hd => h (.inl (by omega))) (by omega))
    (fun ha => hv 8 (fun hd => h (.inl (by omega))) (by omega))
    (fun _ _ => rfl)
    (fun k hk => by rw [g.getS_setS_ne sl fun he => h (.inr (.inl (by rw [hk, he])))])
    (fun k hk => by rw [g.getS_setS_ne sl fun he => h (.inr (.inr (.inl (by rw [hk, he]))))])
    (fun _ _ _ _ => rfl)
    (fun k n hn hk => by rw [g.getS_setS_ne sl fun he => h (.inr (.inr (.inr ⟨n, hn, by rw [hk, he]⟩)))])

/-- Outside the latch's addresses the read map sees the registers and slots alone. -/
theorem Gfu.readByte_latch {g g' : Gfu} (he : g'.e = g.e) (hp : g'.p = g.p) (hs : g'.s = g.s) (a : Addr)
    (h : ¬ AddrOfLatch a) : g'.readByte a = g.readByte a := by
  have hE : ∀ r, g'.getE r = g.getE r := fun r => by rw [Gfu.getE, Gfu.getE, he]
  have hP : ∀ r, g'.getP r = g.getP r := fun r => by rw [Gfu.getP, Gfu.getP, hp]
  have hS : ∀ k, g'.getS k = g.getS k := fun k => by rw [Gfu.getS, Gfu.getS, hs]
  have hv : ∀ b, g'.validByte b = g.validByte b := fun b => Gfu.validByte_congr fun i => by rw [hS]
  exact Gfu.readByte_congr a (fun r _ => hE r)
    (fun ha => absurd (.inl (by omega)) h) (fun ha => absurd (.inl (by omega)) h)
    (fun ha => absurd (.inl (by omega)) h) (fun h1 h2 => absurd (.inr ⟨h1, h2⟩) h)
    (fun _ => hv 0) (fun _ => hv 8)
    (fun r _ => by rw [hP]) (fun k _ => by rw [hS]) (fun k _ => by rw [hS])
    (fun r n _ _ => by rw [hP]) (fun k n _ _ => by rw [hS])

/-- Outside the address of `STATUS` the read map does not see a write of `STATUS.LZ`. -/
theorem Gfu.readByte_setLZ (g : Gfu) (z : Bool) (a : Addr) (h : ¬ AddrOfStatus a) :
    (g.setLZ z).readByte a = g.readByte a :=
  Gfu.readByte_congr a (fun _ _ => rfl)
    (fun ha => absurd ha h) (fun _ => rfl) (fun _ => rfl) (fun _ _ => rfl) (fun _ => rfl) (fun _ => rfl)
    (fun _ _ => rfl) (fun _ _ => rfl) (fun _ _ => rfl) (fun _ _ _ _ => rfl) (fun _ _ _ _ => rfl)

theorem onlyE_setE (s : State) (d : EReg) (v : Byte) : OnlyE d s { s with gfu := s.gfu.setE d v } :=
  ⟨fun _ h => s.gfu.getE_setE_ne v h, rfl, rfl, ⟨rfl, rfl⟩, ⟨rfl, rfl, rfl⟩, ⟨rfl, rfl⟩,
    fun a h => s.gfu.readByte_setE d v a h⟩

theorem onlyP_setP (s : State) (d : PReg) (q : Poly) : OnlyP d s { s with gfu := s.gfu.setP d q } :=
  ⟨fun _ h => s.gfu.getP_setP_ne q h, rfl, rfl, ⟨rfl, rfl⟩, ⟨rfl, rfl, rfl⟩, ⟨rfl, rfl⟩,
    fun a h => s.gfu.readByte_setP d q a h⟩

theorem onlyPAndLZ_setP (s : State) (d : PReg) (q : Poly) (z : Bool) :
    OnlyPAndLZ d s { s with gfu := (s.gfu.setP d q).setLZ z } := by
  refine ⟨fun _ h => s.gfu.getP_setP_ne q h, rfl, rfl, rfl, ⟨rfl, rfl, rfl⟩, ⟨rfl, rfl⟩, fun a h => ?_⟩
  rw [not_or] at h
  exact ((s.gfu.setP d q).readByte_setLZ z a h.2).trans (s.gfu.readByte_setP d q a h.1)

theorem onlyS_setS (s : State) (d : SlotNum) (sl : Slot) : OnlyS d s { s with gfu := s.gfu.setS d sl } :=
  ⟨fun _ h => s.gfu.getS_setS_ne sl h, rfl, rfl, ⟨rfl, rfl⟩, ⟨rfl, rfl, rfl⟩, ⟨rfl, rfl⟩,
    fun a h => s.gfu.readByte_setS d sl a h⟩

theorem onlyLatch_enterFault (s : State) (w : Word) (cause : FaultCause) (info : Byte) :
    OnlyLatch s { s with gfu := s.gfu.enterFault w cause info } :=
  ⟨rfl, rfl, rfl, rfl, ⟨rfl, rfl⟩, fun a h => Gfu.readByte_latch (g := s.gfu) (g' := s.gfu.enterFault w cause info) rfl rfl rfl a h⟩

theorem onlyLatch_clearFault (s : State) : OnlyLatch s { s with gfu := s.gfu.clearFault } :=
  ⟨rfl, rfl, rfl, rfl, ⟨rfl, rfl⟩, fun a h => Gfu.readByte_latch (g := s.gfu) (g' := s.gfu.clearFault) rfl rfl rfl a h⟩

theorem latchesFault_enterFault (s : State) (w : Word) (cause : FaultCause) (info : Byte) :
    LatchesFault w cause.code info s { s with gfu := s.gfu.enterFault w cause info } :=
  ⟨rfl, rfl, rfl, rfl, onlyLatch_enterFault s w cause info⟩

end Sys2Proof.Machine
end

