-- ==== Sys2Proof/Tests/Slice0.lean ====
section
/-! SUPPORT. Tests on single words and single steps, with results from the spec's tables and vectors
(`95_test_vectors.md`), and a witness for the hypotheses of each obligation. -/

namespace Sys2Proof.Tests

open Sys2Proof Sys2Proof.Machine

/-! ### Small states -/

/-- The polynomial whose coefficient bytes are listed. -/
def polyOf (bs : List Byte) : Poly := Poly.build (BitVec.ofNat 7 bs.length) fun n => bs.getD n 0

/-- A share in a slot. -/
def shareOf (x : Byte) (bs : List Byte) : Slot := { v := true, x := x, payload := polyOf bs }

/-- A machine with a unit and nothing pending. -/
def machineOf (g : Gfu) : State := { gfu := g, pending := [], replies := [] }

/-- The state a step answers, if it answers one. -/
def nextOf : Out → Option State
  | .next s => some s
  | _ => none

/-- Does the step answer a state of which the test holds? -/
def holdsAfter (r : Out) (test : Gfu → Bool) : Bool := ((nextOf r).map fun t => test t.gfu).getD false

/-- The bytes of a polynomial, below its length. -/
def bytesOf (q : Poly) : List Byte := (List.range q.len.toNat).map q.coeff

/-- `STATUS`, `FCAUSE`, `FINFO` and `FCMD` of a unit. -/
def latchOf (g : Gfu) : Byte × Byte × Byte × Word := (g.statusByte, g.fcause, g.finfo, g.fcmd)

/-- e0 = 53, e1 = CA, e2 = 8F, p0 = [01 02 03], p1 = [10 20]. -/
def busy : State :=
  machineOf ((((((Gfu.reset.setE 0 0x53).setE 1 0xCA).setE 2 0x8F).setE 3 0x02).setP 0 (polyOf [0x01, 0x02, 0x03])).setP 1
    (polyOf [0x10, 0x20]))

/-- The two shares of V-C2 with x = 1 in slot 0 and x = 2 in slot 1. -/
def twoShares : State :=
  machineOf ((Gfu.reset.setS 0 (shareOf 1 [0xDA, 0xD1, 0x33])).setS 1 (shareOf 2 [0x1A, 0xCA, 0x1D]))

/-- The same two shares, x = 2 in slot 4 and x = 1 in slot 9. -/
def twoSharesMoved : State :=
  machineOf ((Gfu.reset.setS 4 (shareOf 2 [0x1A, 0xCA, 0x1D])).setS 9 (shareOf 1 [0xDA, 0xD1, 0x33]))

/-- The duplicate index 7 of V-F8 to V-F11 in slots 3 and 5. -/
def duplicates : State :=
  machineOf ((Gfu.reset.setS 3 (shareOf 7 [0x00])).setS 5 (shareOf 7 [0x00]))

/-- Payloads of lengths 1 and 2, as in V-F5. -/
def unequal : State :=
  machineOf ((Gfu.reset.setS 0 (shareOf 1 [0x00])).setS 1 (shareOf 2 [0x00, 0x00]))

/-- The unit of `busy` with the fault of `EINV e1, e5` latched. -/
def latched : State := machineOf (busy.gfu.enterFault 0x13150000 .divisionByZero 5)

/-! ### Well-formed words -/

theorem test_illformed_unassignedOpcode : legalWord 0x00000000 = false ∧ legalWord 0x34000000 = false := by decide
theorem test_illformed_formatN : legalWord 0x01000001 = false ∧ legalWord 0x02100000 = false := by decide
theorem test_illformed_formatR1 : legalWord 0x31100001 = false := by decide
theorem test_illformed_formatR2 : legalWord 0x13321000 = false ∧ legalWord 0x32011000 = false := by decide
theorem test_illformed_formatR3 : legalWord 0x11501100 = false ∧ legalWord 0x11501001 = false := by decide
theorem test_illformed_formatI : legalWord 0x10010053 = false ∧ legalWord 0x33200102 = false := by decide
theorem test_illformed_formatRI : legalWord 0x30910103 = false := by decide
theorem test_illformed_formatXI : legalWord 0x21000100 = false := by decide

/-- The decoder refuses the same words, each by the reason R80 gives (V-D1 to V-D23). -/
theorem test_decode_refusesIllformed :
    decode 0x00000000 = .illegal .unassignedOpcode ∧ decode 0xFFFFFFFF = .illegal .unassignedOpcode ∧
    decode 0x14000000 = .illegal .unassignedOpcode ∧ decode 0x34000000 = .illegal .unassignedOpcode ∧
    decode 0x01000001 = .illegal .reservedBitSet ∧ decode 0x31100001 = .illegal .reservedBitSet ∧
    decode 0x32011000 = .illegal .reservedBitSet ∧ decode 0x11501100 = .illegal .reservedBitSet ∧
    decode 0x33210002 = .illegal .reservedBitSet ∧ decode 0x30910103 = .illegal .reservedBitSet ∧
    decode 0x21000100 = .illegal .reservedBitSet := by decide

/-! ### Words written out from the encoding, one per command (V-W1 to V-W17) -/

/-- Family 0x0: op in bits 31:24, every other bit 0 (R71, format N). -/
theorem test_decode_system :
    decode 0b00000001000000000000000000000000 = .command .nop ∧
    decode 0b00000010000000000000000000000000 = .command .clrf ∧
    decode 0b00000011000000000000000000000000 = .command .rst := by decide

/-- Family 0x1: V-W4, `EADD e1, e2, e3`, V-W7, V-W8. -/
theorem test_decode_fieldElement :
    decode 0b00010000111100000000000011111111 = .command (.eli 15 0xFF) ∧
    decode 0b00010001000100100011000000000000 = .command (.eadd 1 2 3) ∧
    decode 0b00010010111111101101000000000000 = .command (.emul 15 14 13) ∧
    decode 0b00010011111111100000000000000000 = .command (.einv 15 14) := by decide

/-- Family 0x2: V-W9, V-W10, V-W11, V-W13. -/
theorem test_decode_polynomial :
    decode 0b00100000111100000000000001000000 = .command (.pclr 15 64) ∧
    decode 0b00100001111100111111000011111111 = .command (.psb 15 63 0xFF) ∧
    decode 0b00100010111111101101000000000000 = .command (.padd 15 14 13) ∧
    decode 0b00100011111111101101000000000000 = .command (.pscl 15 14 13) := by decide

/-- Family 0x3: `SLD s9, p1, 3` of R76, V-W15, `SLC e7, s9` of program D, V-W17. -/
theorem test_decode_shares :
    decode 0b00110000100100010000000000000011 = .command (.sld 9 1 3) ∧
    decode 0b00110001111100000000000000000000 = .command (.sclr 15) ∧
    decode 0b00110010011110010000000000000000 = .command (.slc 7 9) ∧
    decode 0b00110011111100000000000000010000 = .command (.scomb 15 16) := by decide

/-- The command word on a byte bus is little-endian (R51, R55), and four bytes long. -/
theorem test_decodeBytes :
    decodeBytes [0x1D, 0x20, 0x10, 0x21] = .command (.psb 1 2 0x1D) ∧
    decodeBytes [0x1D, 0x20, 0x10] = .illegal .notOneWord ∧
    decodeTableWord 32 0x2110201D = some (.psb 1 2 0x1D) ∧ decodeTableWord 32 0x0F000000 = none := by decide

/-- The assembler's forms (R84, R85; V-W4, V-W6, V-W10, V-W14) and what is no line of it. -/
theorem test_assemble :
    (assembleLine "ELI e15, 0xFF").map encode = some 0x10F000FF ∧
    (assembleLine "ESUB e1, e2, e3").map encode = some 0x11123000 ∧
    (assembleLine "PSB   p15, 63, 0xFF ; the last byte").map encode = some 0x21F3F0FF ∧
    (assembleLine "EZERO e4").map encode = some 0x10400000 ∧
    assembleLine "SLD s16, p15, 16" = none ∧ assembleLine "ELI e0, 256" = none := by decide +kernel

theorem test_assemble_shares :
    (assembleLine "PSUB p1, p2, p3").map encode = some 0x22123000 ∧
    (assembleLine "SLD s15, p15, 16").map encode = some 0x30FF0010 ∧
    assembleLine (render (.pscl 2 0 5)) = some (.pscl 2 0 5) := by decide +kernel

/-! ### The field (section 2 and 3.1 of the vectors) -/

/-- V-M9, V-M18, V-M20, V-M23, V-M24, V-M28. -/
theorem test_gfMul :
    gfMul 0x02 0x80 = 0x1D ∧ gfMul 0x53 0xCA = 0x8F ∧ gfMul 0x57 0x83 = 0x31 ∧ gfMul 0x1D 0x1D = 0x4C ∧
    gfMul 0xFF 0xFF = 0xE2 ∧ gfMul 0x10 0xD8 = 0x01 := by decide

/-- V-X2, V-X4: other polynomials give other products. -/
theorem test_gfMulBy :
    gfMulBy 0x11B 0x53 0xCA = 0x01 ∧ gfMulBy 0x12D 0x53 0xCA = 0x4B ∧ gfMulBy 0x11B 0xFF 0xFF = 0x13 := by decide

/-- V-I2, V-I4, V-I5, V-I8, V-I10. -/
theorem test_gfInv :
    gfInv 0x02 = some 0x8E ∧ gfInv 0x1D = some 0x83 ∧ gfInv 0x53 = some 0x8C ∧ gfInv 0xFF = some 0xFD ∧
    gfInv 0x00 = none := by decide +kernel

/-! ### Single steps -/

theorem test_nop : exec .nop busy = .next busy := rfl

theorem test_clrf_clearsTheLatch :
    holdsAfter (exec .clrf latched) (fun g => latchOf g == (0, 0, 0, 0) && g.getE 1 == 0xCA) = true := by decide

theorem test_rst_clearsWhileLatched : holdsAfter (exec .rst latched) (· == Gfu.reset) = true := by decide +kernel

/-- V-E2. -/
theorem test_eli : holdsAfter (exec (.eli 15 0xFF) busy) (fun g => g.getE 15 == 0xFF && g.getE 14 == 0) = true := by decide

/-- V-E3, V-E4. -/
theorem test_eadd : holdsAfter (exec (.eadd 5 0 1) busy) (fun g => g.getE 5 == 0x99 && g.getE 0 == 0x53) = true := by decide
theorem test_eadd_self : holdsAfter (exec (.eadd 0 0 0) busy) (·.getE 0 == 0) = true := by decide

/-- V-E5, and 02 squared by V-M7 with one register three times. -/
theorem test_emul : holdsAfter (exec (.emul 2 0 1) busy) (·.getE 2 == 0x8F) = true := by decide
theorem test_emul_self : holdsAfter (exec (.emul 3 3 3) busy) (·.getE 3 == 0x04) = true := by decide

/-- V-X2: the machine with another polynomial as its argument gives the other product. -/
theorem test_execWith : holdsAfter (execWith 0x11B (.emul 2 0 1) busy) (·.getE 2 == 0x01) = true := by decide
theorem test_stepWith : holdsAfter (stepWith 0x12D (busy.offer 0x12201000)) (·.getE 2 == 0x4B) = true := by decide

/-- V-I9 by program A; V-E10. -/
theorem test_einv : holdsAfter (exec (.einv 3 2) busy) (·.getE 3 == 0xF5) = true := by decide +kernel
theorem test_einv_zero :
    holdsAfter (exec (.einv 1 7) busy) (fun g => latchOf g == (1, 3, 7, 0x13170000) && g.getE 1 == 0xCA) = true := by
  decide

/-- V-P2, V-P1. -/
theorem test_pclr : holdsAfter (exec (.pclr 0 64) busy) (fun g => (g.getP 0).len == 64 && (g.getP 0).coeff 0 == 0) = true := by
  decide
theorem test_pclr_tooLong : holdsAfter (exec (.pclr 0 65) busy) (latchOf · == (1, 2, 0, 0x20000041)) = true := by decide

/-- The last byte of a register, and one beyond it (V-P5, V-P6). -/
theorem test_psb : holdsAfter (exec (.psb 1 1 0x77) busy) (fun g => bytesOf (g.getP 1) == [0x10, 0x77]) = true := by decide
theorem test_psb_beyond : holdsAfter (exec (.psb 1 2 0x77) busy) (latchOf · == (1, 2, 0, 0x21102077)) = true := by decide

/-- Section 3.2, commands 8 and 19. -/
theorem test_padd_unequalLengths :
    holdsAfter (exec (.padd 2 0 1) busy) (fun g => bytesOf (g.getP 2) == [0x01, 0x12, 0x23]) = true := by decide
theorem test_padd_intoSource :
    holdsAfter (exec (.padd 1 1 0) busy) (fun g => bytesOf (g.getP 1) == [0x01, 0x12, 0x23]) = true := by decide

/-- By V-M7, V-M14 and the doubling of 0x01: 02 · [01 02 03] = [02 04 06]; by a zero scalar three zero bytes. -/
theorem test_pscl : holdsAfter (exec (.pscl 0 0 3) busy) (fun g => bytesOf (g.getP 0) == [0x02, 0x04, 0x06]) = true := by decide
theorem test_pscl_zero : holdsAfter (exec (.pscl 6 0 9) busy) (fun g => bytesOf (g.getP 6) == [0, 0, 0]) = true := by decide

/-- V-S4, V-S5. -/
theorem test_sld :
    holdsAfter (exec (.sld 15 1 16) busy) (fun g => bytesOf (g.getS 15).payload == [0x10, 0x20] && (g.getS 15).x == 16) = true := by
  decide
theorem test_sld_occupied : holdsAfter (exec (.sld 0 0 2) { busy with gfu := busy.gfu.setS 0 (shareOf 1 [0]) })
    (fun g => latchOf g == (1, 2, 0, 0x30000002) && (g.getS 0).x == 1) = true := by decide

theorem test_sclr : holdsAfter (exec (.sclr 1) twoShares) (fun g => g.workingSet == [0] && (g.getS 1).x == 0) = true := by
  decide

/-- The example of R151, and V-F9. -/
theorem test_slc : holdsAfter (exec (.slc 0 0) twoShares) (·.getE 0 == 0xF5) = true := by decide +kernel
theorem test_slc_duplicate : holdsAfter (exec (.slc 0 3) duplicates) (latchOf · == (1, 3, 3, 0x32030000)) = true := by
  decide +kernel

/-- V-C2, V-F11. -/
theorem test_scomb : holdsAfter (exec (.scomb 2 2) twoShares)
    (fun g => bytesOf (g.getP 2) == [0x80, 0x12, 0x34] && latchOf g == (0, 0, 0, 0)) = true := by decide +kernel
theorem test_scomb_duplicate :
    holdsAfter (exec (.scomb 1 2) duplicates) (latchOf · == (1, 3, 3, 0x33100002)) = true := by decide +kernel

/-! ### Reads and the port -/

/-- V-R1 to V-R7 and V-R13 on the unit of `latched`. -/
theorem test_memRead :
    latched.gfu.memRead 0x000 .four = 0x028FCA53 ∧ latched.gfu.memRead 0x001 .two = 0x8FCA ∧
    latched.gfu.memRead 0x010 .four = 0x00050301 ∧ latched.gfu.memRead 0x014 .four = 0x13150000 ∧
    latched.gfu.memRead 0xFFF .two = 0x5300 ∧ latched.gfu.memRead 0x400 .four = 0x00030201 := by decide

theorem test_step_write :
    holdsAfter (step { busy with pending := [.write 0xFFC [0x11, 0x00, 0x90, 0x10]] }) (·.getE 9 == 0x11) = true := by decide
theorem test_step_dropsWhileLatched :
    holdsAfter (step (latched.offer 0x10000022)) (fun g => g.getE 0 == 0x53 && g.fcause == 3) = true := by decide
theorem test_step_withFetchWord : holdsAfter (step (State.reset.withFetchWord 32 0x10F000FF)) (·.getE 15 == 0xFF) = true := by
  decide

/-! ### The small units meet the invariant -/

theorem polyOf_ok (bs : List Byte) (h : bs.length ≤ 64) : (polyOf bs).Ok :=
  Poly.ok_build _ (by rw [BitVec.toNat_ofNat]; omega)

theorem shareOf_ok (x : Byte) (bs : List Byte) (hx : 1 ≤ x.toNat ∧ x.toNat ≤ 16) (h : 1 ≤ bs.length ∧ bs.length ≤ 64) :
    (shareOf x bs).Ok :=
  ⟨polyOf_ok bs h.2, fun _ => ⟨hx.1, hx.2, by
    show 1 ≤ (BitVec.ofNat 7 bs.length).toNat
    rw [BitVec.toNat_ofNat]; omega⟩, fun h => by cases h⟩

/-- The unit of `busy` and that of `latched`. -/
theorem witness_busyUnits : busy.Inv ∧ latched.Inv := by
  have h : busy.gfu.Ok := by
    refine Gfu.setP_ok _ (Gfu.setP_ok _ (g := (((Gfu.reset.setE 0 0x53).setE 1 0xCA).setE 2 0x8F).setE 3 0x02) ?_
      (polyOf_ok _ (by decide))) (polyOf_ok _ (by decide))
    exact ⟨fun r => by simpa using Poly.ok_empty, fun k => by simpa using Slot.ok_empty, by decide⟩
  exact ⟨h, h.1, h.2.1, by decide⟩

/-- A unit with two shares, and one with a single share. -/
theorem witness_shareUnits : twoShares.Inv ∧ (machineOf (Gfu.reset.setS 6 (shareOf 5 [0x80]))).Inv := by
  have h (k : SlotNum) (sl : Slot) (hs : sl.Ok) : (Gfu.reset.setS k sl).Ok := by
    refine Gfu.setS_ok k ⟨fun r => by simpa using Poly.ok_empty, fun k => by simpa using Slot.ok_empty, by decide⟩ hs
  exact ⟨Gfu.setS_ok _ (h _ _ (shareOf_ok _ _ (by decide) (by decide))) (shareOf_ok _ _ (by decide) (by decide)),
    h _ _ (shareOf_ok _ _ (by decide) (by decide))⟩

/-! ### Witnesses: states and operands that meet the hypotheses of the obligations -/

/-- O2. -/
theorem witness_encodeDecode : decode 0x12FED000 = .command (.emul 15 14 13) := by decide

/-- O4, clause by clause. -/
theorem witness_decoderIsTheOpcodeMap :
    (⟨"EMUL", 0x12000000, 0xFF000FFF⟩ : OpcodeRow) ∈ opcodeTable ∧
    OpcodeRow.matchesWord ⟨"EMUL", 0x12000000, 0xFF000FFF⟩ 0x12FED000 = true ∧ legalWord 0x12FED100 = false := by decide

/-- O5, at both ends of each range. -/
theorem witness_reservedOpcodes :
    opField 0x00FFFFFF = 0x00 ∧ (opField 0x04000000).toNat = 0x04 ∧ (opField 0x0F000000).toNat = 0x0F ∧
    (opField 0x14000000).toNat = 0x14 ∧ (opField 0x1F000000).toNat = 0x1F ∧ (opField 0x24000000).toNat = 0x24 ∧
    (opField 0x2F000000).toNat = 0x2F ∧ (opField 0x34000000).toNat = 0x34 ∧ (opField 0x3F000000).toNat = 0x3F ∧
    (opField 0x40000000).toNat = 0x40 ∧ (opField 0xFF000000).toNat = 0xFF := by decide

/-- The product by any polynomial of degree 8, on the unit's and on another. -/
theorem witness_polynomialOfDegree8 : (0x11D : BitVec 9).getLsbD 8 = true ∧ (0x12D : BitVec 9).getLsbD 8 = true := by decide

/-- The inverse, and the laws on it and on a zero product. -/
theorem witness_inverse :
    (0x02 : Byte) ≠ 0x00 ∧ gfMul 0x02 0x8E = 0x01 ∧ gfInv 0x02 = some 0x8E ∧ gfMul 0x00 0xFF = 0x00 := by decide +kernel

/-- An assembled line. -/
theorem witness_assembled : instrOf "ESUB" [['e', '1'], ['e', '2'], ['e', '3']] = some (.eadd 1 2 3) := by decide +kernel

/-- EMUL and PSCL: sources 0x00 and 0x01. -/
theorem witness_zeroAndOne :
    busy.gfu.getE 7 = 0x00 ∧ (machineOf (busy.gfu.setE 7 0x01)).gfu.getE 7 = 0x01 ∧ (busy.gfu.getP 0).Ok :=
  ⟨rfl, rfl, polyOf_ok _ (by decide)⟩

/-- EINV: a zero source, a source that is not. -/
theorem witness_einv : busy.gfu.getE 15 = 0x00 ∧ busy.gfu.getE 2 ≠ 0x00 := by decide

/-- PCLR: at, below and above the boundary. -/
theorem witness_pclr :
    64 < (0x41 : Byte).toNat ∧ 64 < (0xFF : Byte).toNat ∧ (0x40 : Byte).toNat ≤ 64 ∧ (0x00 : Byte).toNat ≤ 64 := by decide

/-- PSB: at the length, in an empty register, just below the length. -/
theorem witness_psb :
    (busy.gfu.getP 1).len.toNat ≤ (0x02 : Byte).toNat ∧ (busy.gfu.getP 9).len.toNat ≤ (0x00 : Byte).toNat ∧
    (0x01 : Byte).toNat < (busy.gfu.getP 1).len.toNat ∧ (busy.gfu.getP 1).len.toNat ≤ 64 := by decide

/-- PADD: sources of different lengths. -/
theorem witness_padd : (busy.gfu.getP 0).len.toNat ≤ 64 ∧ (busy.gfu.getP 1).len.toNat ≤ 64 := by decide

/-- SLD: each of the four refusals, and the two ends of the legal indices. -/
theorem witness_sld :
    (0x00 : Byte).toNat < 1 ∧ 16 < (0x11 : Byte).toNat ∧ (busy.gfu.getP 9).len = 0 ∧ (twoShares.gfu.getS 1).v = true ∧
    1 ≤ (0x01 : Byte).toNat ∧ (0x10 : Byte).toNat ≤ 16 ∧ (busy.gfu.getP 1).len ≠ 0 ∧ (busy.gfu.getS 0).v = false := by
  decide

/-- SCLR on an empty slot of a unit as runs keep it. -/
theorem witness_sclr_empty : (twoShares.gfu.getS 7).v = false ∧ (twoShares.gfu.getS 7).Ok := by decide +kernel

/-- The working set, and numerator and denominators with and without a duplicate index. -/
theorem witness_denominators :
    duplicates.gfu.workingSet = [3, 5] ∧ duplicates.gfu.denominator [3, 5] 3 = 0x00 ∧
    gfInv (twoShares.gfu.denominator [0, 1] 0) = some 0xF4 ∧
    (5 : SlotNum) ∈ ([3, 5] : List SlotNum) ∧ (duplicates.gfu.getS 5).x = (duplicates.gfu.getS 3).x := by decide +kernel

/-- Another order of a working set. -/
theorem witness_order : ([3, 5] : List SlotNum).Perm [5, 3] := .swap _ _ _

/-- SLC: an empty slot, a zero denominator, a denominator that is not zero (in a unit
of `witness_shareUnits`). -/
theorem witness_slc :
    (twoShares.gfu.getS 2).v = false ∧
    (duplicates.gfu.getS 5).v = true ∧ duplicates.gfu.denominator duplicates.gfu.workingSet 5 = 0x00 ∧
    (twoShares.gfu.getS 1).v = true ∧ twoShares.gfu.denominator twoShares.gfu.workingSet 1 ≠ 0x00 := by
  decide +kernel

/-- SLC: the only valid slot, in the other unit of `witness_shareUnits`. -/
theorem witness_slc_alone :
    (machineOf (Gfu.reset.setS 6 (shareOf 5 [0x80]))).gfu.workingSet = [6] ∧
    (machineOf (Gfu.reset.setS 6 (shareOf 5 [0x80]))).gfu.denominator [6] 6 ≠ 0x00 := by decide +kernel

/-- SCOMB: each of the four IllegalOperand cases. -/
theorem witness_scomb_illegalOperand :
    (0x00 : Byte).toNat < 1 ∧ 16 < (0x11 : Byte).toNat ∧
    twoShares.gfu.workingSet = [0, 1] ∧ [0, 1].length ≠ (0x03 : Byte).toNat ∧
    unequal.gfu.workingSet = [0, 1] ∧ (unequal.gfu.getS 0).payload.len ≠ (unequal.gfu.getS 1).payload.len := by decide

/-- SCOMB: the lowest slot with a zero denominator. -/
theorem witness_scomb_divisionByZero :
    duplicates.gfu.workingSet = [3, 5] ∧ [3, 5].length = (0x02 : Byte).toNat ∧
    (∀ k ∈ ([3, 5] : List SlotNum), (duplicates.gfu.getS k).payload.len = 1) ∧
    duplicates.gfu.denominator [3, 5] 3 = 0x00 ∧
    (∀ j ∈ ([3, 5] : List SlotNum), j < 3 → duplicates.gfu.denominator [3, 5] j ≠ 0x00) := by decide +kernel

/-- SCOMB: a combine that completes. -/
theorem witness_scomb_completes :
    twoShares.gfu.workingSet = [0, 1] ∧ [0, 1].length = (0x02 : Byte).toNat ∧
    (∀ k ∈ ([0, 1] : List SlotNum), (twoShares.gfu.getS k).payload.len = 3) ∧
    (∀ i ∈ ([0, 1] : List SlotNum), twoShares.gfu.denominator [0, 1] i ≠ 0x00) := by decide +kernel

/-- SCOMB: a combine of one share, and one that has completed. -/
theorem witness_scomb_alone :
    (machineOf (Gfu.reset.setS 6 (shareOf 5 [0x80]))).gfu.workingSet = [6] ∧ ([6] : List SlotNum).length = (0x01 : Byte).toNat ∧
    (∀ i ∈ ([6] : List SlotNum), (machineOf (Gfu.reset.setS 6 (shareOf 5 [0x80]))).gfu.denominator [6] i ≠ 0x00) ∧
    ((nextOf (exec (.scomb 1 1) (machineOf (Gfu.reset.setS 6 (shareOf 5 [0x80]))))).map (·.gfu.statusF)) = some false := by
  decide +kernel

/-- Order independence: the same two shares, in other slots and the other order, and the slots of one index. -/
theorem witness_orderOfShares :
    twoShares.gfu.shares.Perm twoSharesMoved.gfu.shares ∧ twoShares.gfu.statusF = false ∧
    twoSharesMoved.gfu.statusF = false ∧ (twoShares.gfu.getS 0).v = true ∧ (twoSharesMoved.gfu.getS 9).v = true ∧
    (twoShares.gfu.getS 0).x = (twoSharesMoved.gfu.getS 9).x := by
  refine ⟨?_, rfl, rfl, rfl, rfl, rfl⟩
  have h : twoShares.gfu.shares = [(1, polyOf [0xDA, 0xD1, 0x33]), (2, polyOf [0x1A, 0xCA, 0x1D])] := rfl
  have h' : twoSharesMoved.gfu.shares = [(2, polyOf [0x1A, 0xCA, 0x1D]), (1, polyOf [0xDA, 0xD1, 0x33])] := rfl
  rw [h, h']
  exact .swap _ _ _

/-- The polynomials of V-C2: S = [80 12 34], A_1 = [5A C3 07]. -/
def secretPolynomial (n : Nat) : List Byte :=
  [([0x80, 0x12, 0x34] : List Byte).getD n 0, ([0x5A, 0xC3, 0x07] : List Byte).getD n 0]

/-- The shares of V-C2 meet what a combine recovers a secret from: lengths and indices. -/
theorem witness_recovery_slots :
    twoShares.gfu.workingSet = [0, 1] ∧ [0, 1].length = (0x02 : Byte).toNat ∧
    (∀ k ∈ ([0, 1] : List SlotNum), (twoShares.gfu.getS k).payload.len = 3 ∧ (twoShares.gfu.getS k).x ≠ 0x00) ∧
    ∀ i ∈ ([0, 1] : List SlotNum), ∀ j ∈ ([0, 1] : List SlotNum),
      (twoShares.gfu.getS i).x = (twoShares.gfu.getS j).x → i = j := by
  decide

/-- The shares of V-C2 meet what a combine recovers a secret from: payloads made from the secret's polynomials. -/
theorem witness_recovery_payloads :
    (∀ n, (secretPolynomial n).length ≤ (0x02 : Byte).toNat) ∧
    ∀ k ∈ ([0, 1] : List SlotNum), ∀ n, n < (3 : BitVec 7).toNat → ∃ b, gfInv (twoShares.gfu.getS k).x = some b ∧
      (twoShares.gfu.getS k).payload.coeff n = gfMul (evalAt (twoShares.gfu.getS k).x (secretPolynomial n)) b := by
  have one : ∀ n < 3, (twoShares.gfu.getS 0).payload.coeff n =
      gfMul (evalAt (twoShares.gfu.getS 0).x (secretPolynomial n)) 0x01 := by decide +kernel
  have two : ∀ n < 3, (twoShares.gfu.getS 1).payload.coeff n =
      gfMul (evalAt (twoShares.gfu.getS 1).x (secretPolynomial n)) 0x8E := by decide +kernel
  refine ⟨fun n => by simp [secretPolynomial], fun k hk n hn => ?_⟩
  simp only [List.mem_cons, List.not_mem_nil, or_false] at hk
  obtain rfl | rfl := hk
  · exact ⟨0x01, by decide +kernel, one n hn⟩
  · exact ⟨0x8E, by decide +kernel, two n hn⟩

/-- NOP's opcode in a word that is not NOP. -/
theorem witness_notNop : opField 0x01000001 = 0x01 ∧ (0x01000001 : Word) ≠ 0x01000000 := by decide

/-- CLRF with no fault latched, in a unit as runs keep it. -/
theorem witness_clrf : busy.gfu.statusF = false ∧ busy.gfu.LatchOk := by decide +kernel

/-- A unit as runs keep it, with a command that faults on it by each of the two causes: CLRF after the fault, precise
entry, LZ kept. -/
theorem witness_commandFaults :
    busy.Inv ∧ busy.gfu.statusF = false ∧ exec (.einv 1 5) busy = .next latched ∧ latched.gfu.statusF = true ∧
    hostCmd 0x13150000 busy = .next latched ∧
    (∃ t, hostCmd 0x20000041 busy = .next t ∧ t.gfu.statusF = true) ∧
    ∃ t, hostCmd 0x00000000 busy = .next t ∧ t.gfu.statusF = true :=
  ⟨witness_busyUnits.1, rfl, rfl, rfl, rfl, ⟨_, rfl, rfl⟩, _, rfl, rfl⟩

/-- The ends of the read map's ranges that read 0x00, on a unit that is not zero. -/
theorem witness_readMap_zeros :
    latched.gfu.readByte 0x01A = 0x00 ∧ latched.gfu.readByte 0x03F = 0x00 ∧ latched.gfu.readByte 0x070 = 0x00 ∧
    latched.gfu.readByte 0x3FF = 0x00 ∧ latched.gfu.readByte 0xC00 = 0x00 ∧ latched.gfu.readByte 0xFFF = 0x00 := by decide

/-- The ends of the read map's other ranges. -/
theorem witness_readMap_values :
    latched.gfu.readByte 0x000 = 0x53 ∧ latched.gfu.readByte 0x00F = 0x00 ∧ latched.gfu.readByte 0x017 = 0x13 ∧
    duplicates.gfu.readByte 0x018 = 0x28 ∧ (machineOf (Gfu.reset.setS 15 (shareOf 16 [0xAB]))).gfu.readByte 0x019 = 0x80 ∧
    (machineOf (Gfu.reset.setS 15 (shareOf 16 [0xAB]))).gfu.readByte 0xBC0 = 0xAB ∧
    latched.gfu.readByte 0x041 = 0x02 ∧ duplicates.gfu.readByte 0x055 = 0x01 ∧ duplicates.gfu.readByte 0x063 = 0x07 := by
  decide

/-- Two units that read the same everywhere. -/
theorem witness_readMap_determines : ∀ a : Addr, latched.gfu.readByte a = latched.gfu.readByte a := fun _ => rfl

/-- A pending read, a pending command write, and two pending writes that are ignored. -/
theorem witness_pending :
    ({ busy with pending := [.read 0xFFE .four] } : State).pending = .read 0xFFE .four :: [] ∧
    ({ busy with pending := [.write 0xFFC [0, 0, 0, 3]] } : State).pending = .write 0xFFC [0, 0, 0, 3] :: [] ∧
    ((0xFF8 : Addr) ≠ 0xFFC ∨ [0x00, 0x00, 0x00, 0x03].length ≠ 4) ∧ ((0xFFC : Addr) ≠ 0xFFC ∨ [0x00, 0x03].length ≠ 4) ∧
    0xFFC ≤ (0xFFC : Addr).toNat ∧ 0xFFC ≤ (0xFFF : Addr).toNat := by decide

/-- A step that changes the unit. -/
theorem witness_unitChanges : ∃ t, step (busy.offer 0x10F000FF) = .next t ∧ t.gfu ≠ busy.gfu := by
  refine ⟨_, rfl, fun h => ?_⟩
  exact absurd (congrArg (fun g => Gfu.getE g 15) h) (by decide)

/-- Two machines with the same unit and the same next action, and other hosts. -/
theorem witness_sameUnit :
    (busy.offer 0x01000000).gfu = ({ busy with pending := [.cmd 0x01000000, .cmd 0x03000000], replies := [7] } : State).gfu ∧
    (busy.offer 0x01000000).pending = [.cmd 0x01000000] ∧ (∃ t, step (busy.offer 0x01000000) = .next t) ∧
    ∃ t, step { busy with pending := [.cmd 0x01000000, .cmd 0x03000000], replies := [7] } = .next t :=
  ⟨rfl, rfl, ⟨_, rfl⟩, _, rfl⟩

/-- A decoded command: without a fault, and the two that acknowledge one. -/
theorem witness_stepRuns :
    (busy.offer 0x11501000).pending = [.cmd 0x11501000] ∧ decode 0x11501000 = .command (.eadd 5 0 1) ∧
    busy.gfu.statusF = false ∧ decode 0x02000000 = .command .clrf ∧ decode 0x03000000 = .command .rst ∧
    latched.gfu.statusF = true := by decide

/-- An illegal word with no fault latched; words dropped by a latched unit. -/
theorem witness_illegalAndDropped :
    legalWord 0x02000001 = false ∧ busy.gfu.statusF = false ∧ latched.gfu.statusF = true ∧
    (0x02000001 : Word) ≠ 0x02000000 ∧ (0x02000001 : Word) ≠ 0x03000000 ∧ (0x10000022 : Word) ≠ 0x02000000 := by decide

/-- A machine with nothing pending. -/
theorem witness_idle : busy.pending = [] := rfl

/-- A step from a latched unit, one that leaves it and one that clears it. -/
theorem witness_latchedSteps :
    latched.gfu.statusF = true ∧ step (latched.offer 0x00000000) = .next latched ∧
    ∃ t, step (latched.offer 0x02000000) = .next t ∧ t.gfu.statusF = false := ⟨rfl, rfl, _, rfl, rfl⟩

/-- Commands that change an E register, a P register, a share slot, and both flags. -/
theorem witness_writers :
    (∃ t, exec (.eli 0 0x01) busy = .next t ∧ t.gfu.getE 0 ≠ busy.gfu.getE 0) ∧
    (∃ t, exec (.pclr 0 1) busy = .next t ∧ (t.gfu.getP 0).len ≠ (busy.gfu.getP 0).len) ∧
    (∃ t, exec (.sld 0 0 1) busy = .next t ∧ (t.gfu.getS 0).v ≠ (busy.gfu.getS 0).v) ∧
    (∃ t, exec .clrf latched = .next t ∧ latched.gfu.statusF = true ∧ t.gfu.statusF = false) ∧
    (∃ t, exec .rst (machineOf (twoShares.gfu.setLZ true)) = .next t ∧ t.gfu.statusLZ ≠ true) :=
  ⟨⟨_, rfl, by decide⟩, ⟨_, rfl, by decide⟩, ⟨_, rfl, by decide⟩, ⟨_, rfl, rfl, rfl⟩, _, rfl, by decide⟩

/-- A command that does not multiply, and another polynomial of degree 8 with sources that complete under it. -/
theorem witness_givenField :
    mnemonicOf (.eadd 1 2 3) ∉ ["EMUL", "EINV", "PSCL", "SLC", "SCOMB"] ∧ (0x12D : BitVec 9).getLsbD 8 = true ∧
    busy.gfu.getE 2 ≠ 0x00 ∧ (twoShares.gfu.getS 1).v = true ∧
    twoShares.gfu.denominator twoShares.gfu.workingSet 1 0x12D ≠ 0x00 := by decide

/-- Steps from machines that meet the invariant, with a fault latched and explained and without one. -/
theorem witness_invariants :
    twoShares.Inv ∧ latched.Inv ∧ latched.FaultExplained ∧
    (∃ t, step (twoShares.offer 0x33200002) = .next t) ∧ ∃ t, step (latched.offer 0x10000022) = .next t :=
  ⟨witness_shareUnits.1, witness_busyUnits.2, fun _ => rfl, ⟨_, rfl⟩, _, rfl⟩

end Sys2Proof.Tests
end

section
/-! The state's writers (`10_state.md` R31, R32): what each write changes in the slots and flags, and that no command reads
`STATUS.LZ`. -/

namespace Sys2Proof.Machine

section Inversion

variable {fieldPoly : BitVec 9} {g g' : Gfu} {i : Instr} {cause : FaultCause} {info : Byte} {s t : State}

/-- `exec_cases` of a next state that is known. -/
theorem exec_next_cases (h : exec i s = .next t) :
    (∃ g, Wrote Config.fieldPoly s.gfu i g ∧ t = { s with gfu := g }) ∨
    (∃ cause info, Raises Config.fieldPoly s.gfu i cause info ∧
      t = { s with gfu := s.gfu.enterFault (encode i) cause info }) := by
  obtain ⟨g, hw, he⟩ | ⟨cause, info, hr, he⟩ := exec_cases i s
  · exact .inl ⟨g, hw, by simpa [he, eq_comm] using h⟩
  · exact .inr ⟨cause, info, hr, by simpa [he, eq_comm] using h⟩

/-- A command whose write is possible makes it: the converse of the first case of `execWith_cases`. -/
theorem Wrote.execWith_eq (h : Wrote fieldPoly s.gfu i g) :
    execWith fieldPoly i s = .next { s with gfu := g } := by
  cases h with
  | nothing | cleared | reset | eli | eadd | emul | padd | pscl | sclr => rfl
  | einv d a v h => simp [execWith, execEinvWith, h]
  | pclr d imm h => simp [execWith, execPclr, h]
  | psb d m imm h => simp [execWith, execPsb, h]
  | sld d a imm hx hl hv => simpa [execWith, execSld, hx, hv] using fun he => absurd he hl
  | slc d a lc hv hlc => simp [execWith, execSlcWith, hv, hlc]
  | scomb d imm q ht hn hl hq => simp [execWith, execScombWith, ht, hn, hl, hq]

/-- A command that has a fault to raise latches it: the converse of the second case of `execWith_cases`. -/
theorem Raises.execWith_eq (h : Raises fieldPoly s.gfu i cause info) :
    execWith fieldPoly i s = .next { s with gfu := s.gfu.enterFault (encode i) cause info } := by
  cases h with
  | einv d a h => simp [execWith, execEinvWith, h]
  | pclr d imm h => simp [execWith, execPclr, h]
  | psb d m imm h => simp [execWith, execPsb, h]
  | sld d a imm h => obtain h | h | h := h <;> simp [execWith, execSld, h]
  | slcEmpty d a h => simp [execWith, execSlcWith, h]
  | slcZero d a hv h => simp [execWith, execSlcWith, hv, h]
  | scomb d imm h => obtain h | h | h := h <;> simp [execWith, execScombWith, h]
  | scombZero d imm k ht hn hl h => simp [execWith, execScombWith, ht, hn, hl, h]

/-- The completed commands that change a share slot (`10_state.md` R31). -/
theorem Wrote.getS_ne (h : Wrote fieldPoly g i g') {k : SlotNum} (hk : g'.getS k ≠ g.getS k) :
    (i = .rst ∧ g'.getS k = Slot.empty) ∨ (i = .sclr k ∧ g'.getS k = Slot.empty) ∨
      ∃ a imm, i = .sld k a imm ∧ (g.getS k).v = false := by
  have slot_eq {d : SlotNum} {sl : Slot} (hne : (g.setS d sl).getS k ≠ g.getS k) : k = d :=
    not_imp_comm.1 (g.getS_setS_ne sl) hne
  cases h with
  | reset => exact .inl ⟨rfl, Gfu.getS_reset k⟩
  | sclr d =>
    obtain rfl := slot_eq hk
    exact .inr (.inl ⟨rfl, g.getS_setS_same k _⟩)
  | sld d a imm hx hl hv =>
    obtain rfl := slot_eq hk
    exact .inr (.inr ⟨a, imm, rfl, hv⟩)
  | nothing | cleared | eli | eadd | emul | einv | pclr | psb | padd | pscl | slc | scomb => exact absurd rfl hk

/-- A completed command leaves `STATUS.F`, but CLRF and RST, which clear it (`10_state.md` R32). -/
theorem Wrote.statusF_cases (h : Wrote fieldPoly g i g') :
    g'.statusF = g.statusF ∨ ((i = .rst ∨ i = .clrf) ∧ g'.statusF = false) := by
  cases h with
  | reset => exact .inr ⟨.inl rfl, rfl⟩
  | cleared => exact .inr ⟨.inr rfl, rfl⟩
  | nothing | eli | eadd | emul | einv | pclr | psb | padd | pscl | sld | sclr | slc | scomb => exact .inl rfl

/-- A completed command leaves `STATUS.LZ`, but RST and SCOMB; SCOMB leaves `STATUS.F` (`10_state.md` R32). -/
theorem Wrote.statusLZ_cases (h : Wrote fieldPoly g i g') :
    g'.statusLZ = g.statusLZ ∨ i = .rst ∨ ((∃ d imm, i = .scomb d imm) ∧ g'.statusF = g.statusF) := by
  cases h with
  | reset => exact .inr (.inl rfl)
  | scomb d imm => exact .inr (.inr ⟨⟨d, imm, rfl⟩, rfl⟩)
  | nothing | cleared | eli | eadd | emul | einv | pclr | psb | padd | pscl | sld | sclr | slc => exact .inl rfl

/-- A completed SCOMB sets `STATUS.LZ` by the leading byte of its result (`10_state.md` R33). -/
theorem Wrote.scomb_statusLZ_iff {d : PReg} {imm : Byte} (h : Wrote fieldPoly g (.scomb d imm) g') :
    g'.statusLZ = true ↔ (g'.getP d).coeff 0 = 0x00 := by
  cases h
  simp [leadingZero]

end Inversion

/-! ### The combiner reads the share slots alone -/

section SlotsAlone

variable {g g' : Gfu} (h : g'.s = g.s) (fieldPoly : BitVec 9)
include h

theorem Gfu.getS_congr (k : SlotNum) : g'.getS k = g.getS k := by rw [Gfu.getS, Gfu.getS, h]

theorem Gfu.commonLen_congr (K : List SlotNum) : g'.commonLen K = g.commonLen K := by
  cases K with
  | nil => rfl
  | cons k _ => rw [Gfu.commonLen, Gfu.commonLen, Gfu.getS_congr h]

theorem Gfu.unequalLengths_congr (K : List SlotNum) : g'.unequalLengths K = g.unequalLengths K := by
  simp [Gfu.unequalLengths, Gfu.getS_congr h, Gfu.commonLen_congr h]

theorem Gfu.lagrange_congr (K : List SlotNum) (i : SlotNum) :
    g'.lagrange K i fieldPoly = g.lagrange K i fieldPoly := by
  simp [Gfu.lagrange, Gfu.numerator, Gfu.denominator, Gfu.getS_congr h]

theorem Gfu.combineLoop_congr (K todo : List SlotNum) (acc : Poly) :
    g'.combineLoop K todo acc fieldPoly = g.combineLoop K todo acc fieldPoly := by
  induction todo generalizing acc with
  | nil => rfl
  | cons i rest ih => simp [Gfu.combineLoop, Gfu.lagrange_congr h, Gfu.getS_congr h, ih]

theorem Gfu.combine_congr (K : List SlotNum) : g'.combine K fieldPoly = g.combine K fieldPoly := by
  simp [Gfu.combine, Gfu.combineLoop_congr h, Gfu.commonLen_congr h]

end SlotsAlone

/-! ### No command reads `STATUS.LZ` (`10_state.md` R32) -/

section SetLZ

variable {fieldPoly : BitVec 9} {g g' : Gfu} {i : Instr} {cause : FaultCause} {info : Byte} {s t : State} (z : Bool)

@[simp] theorem Gfu.workingSet_setLZ : (g.setLZ z).workingSet = g.workingSet := Gfu.workingSet_congr rfl

@[simp] theorem Gfu.unequalLengths_setLZ (K : List SlotNum) : (g.setLZ z).unequalLengths K = g.unequalLengths K :=
  Gfu.unequalLengths_congr rfl K

@[simp] theorem Gfu.lagrange_setLZ (K : List SlotNum) (k : SlotNum) :
    (g.setLZ z).lagrange K k fieldPoly = g.lagrange K k fieldPoly := Gfu.lagrange_congr rfl fieldPoly K k

@[simp] theorem Gfu.combine_setLZ (K : List SlotNum) :
    (g.setLZ z).combine K fieldPoly = g.combine K fieldPoly :=
  Gfu.combine_congr (g := g) (g' := g.setLZ z) rfl fieldPoly K

/-- Under another `STATUS.LZ` a command that completes makes the same write of everything else. -/
theorem Wrote.setLZ (h : Wrote fieldPoly g i g') : ∃ z', Wrote fieldPoly (g.setLZ z) i (g'.setLZ z') := by
  cases h with
  | nothing => exact ⟨z, .nothing⟩
  | cleared => exact ⟨z, .cleared⟩
  | reset => exact ⟨false, .reset⟩
  | eli d imm => exact ⟨z, .eli d imm⟩
  | eadd d a b => exact ⟨z, .eadd d a b⟩
  | emul d a b => exact ⟨z, .emul d a b⟩
  | einv d a v h => exact ⟨z, .einv d a v h⟩
  | pclr d imm h => exact ⟨z, .pclr d imm h⟩
  | psb d m imm h => exact ⟨z, .psb d m imm h⟩
  | padd d a b => exact ⟨z, .padd d a b⟩
  | pscl d a b => exact ⟨z, .pscl d a b⟩
  | sld d a imm hx hl hv => exact ⟨z, .sld d a imm hx hl hv⟩
  | sclr d => exact ⟨z, .sclr d⟩
  | slc d a lc hv hlc => exact ⟨z, .slc d a lc hv (by simpa using hlc)⟩
  | scomb d imm q ht hn hl hq =>
    exact ⟨leadingZero q, .scomb d imm q ht (by simpa using hn) (by simpa using hl) (by simpa using hq)⟩

/-- Under another `STATUS.LZ` a command has the same fault to raise. -/
theorem Raises.setLZ (h : Raises fieldPoly g i cause info) : Raises fieldPoly (g.setLZ z) i cause info := by
  cases h with
  | einv d a h => exact .einv d a h
  | pclr d imm h => exact .pclr d imm h
  | psb d m imm h => exact .psb d m imm h
  | sld d a imm h => exact .sld d a imm h
  | slcEmpty d a h => exact .slcEmpty d a h
  | slcZero d a hv h => exact .slcZero d a hv (by simpa using h)
  | scomb d imm h => exact .scomb d imm (by simpa using h)
  | scombZero d imm k ht hn hl h =>
    exact .scombZero d imm k ht (by simpa using hn) (by simpa using hl) (by simpa using h)

/-- Executed under another `STATUS.LZ`, a command answers the same state but for `STATUS.LZ`. -/
theorem exec_setLZ (h : exec i s = .next t) :
    ∃ z', exec i { s with gfu := s.gfu.setLZ z } = .next { t with gfu := t.gfu.setLZ z' } := by
  simp only [exec_eq_execWith]
  obtain ⟨g, hw, rfl⟩ | ⟨cause, info, hr, rfl⟩ := exec_next_cases h
  · obtain ⟨z', hw'⟩ := hw.setLZ z
    exact ⟨z', hw'.execWith_eq (s := { s with gfu := s.gfu.setLZ z })⟩
  · exact ⟨z, (hr.setLZ z).execWith_eq (s := { s with gfu := s.gfu.setLZ z })⟩

end SetLZ

/-! ### The bits of `STATUS` as the host reads it -/

theorem Gfu.readByte_status (g : Gfu) : g.readByte 0x010 = g.statusByte := rfl

theorem Gfu.getLsbD_statusByte (g : Gfu) (n : Nat) :
    g.statusByte.getLsbD n = if n = 0 then g.statusF else if n = 1 then g.statusLZ else false := by
  simp only [Gfu.statusByte, BitVec.getLsbD_append]
  match n with
  | 0 | 1 => simp
  | n + 2 => simp

/-! ### The obligations -/

/-- Settles O49: the completed commands that change a slot are those of `Wrote.getS_ne`, and a fault changes none. -/
theorem shareSlotWriters : Obligations.ShareSlotWriters := by
  refine ⟨fun i s t k h hk => ?_, rfl, rfl, rfl, fun n _ => Poly.coeff_empty n⟩
  obtain ⟨g, hw, rfl⟩ | ⟨cause, info, -, rfl⟩ := exec_next_cases h
  · exact hw.getS_ne hk
  · exact absurd rfl hk

/-- Settles O50, clause by clause, from the two outcomes of a command: its own write or a latched fault. -/
theorem statusFlagWriters : Obligations.StatusFlagWriters := by
  refine ⟨fun g => ?_, fun i s t h hLZ => ?_, fun i s t h hF hF' => ?_, fun i s t h hF hF' => ?_,
    fun d imm s t h hF hF' => ?_, fun i s t z h => ?_, rfl, rfl⟩
  · simp only [Gfu.readByte_status, Gfu.getLsbD_statusByte]
    exact ⟨rfl, rfl, fun n hn => by rw [if_neg (by omega), if_neg (by omega)]⟩
  · obtain ⟨g, hw, rfl⟩ | ⟨cause, info, -, rfl⟩ := exec_next_cases h
    · exact hw.statusLZ_cases.resolve_left hLZ
    · exact absurd rfl hLZ
  · obtain ⟨g, hw, rfl⟩ | ⟨cause, info, -, rfl⟩ := exec_next_cases h
    · obtain hsame | ⟨hi, -⟩ := hw.statusF_cases
      · exact absurd hF' (by simp [hsame, hF])
      · exact hi
    · cases hF'
  · obtain ⟨g, hw, rfl⟩ | ⟨cause, info, -, rfl⟩ := exec_next_cases h
    · obtain hsame | ⟨-, hclear⟩ := hw.statusF_cases
      · exact absurd hF' (by simp [hsame, hF])
      · exact absurd hF' (by simp [hclear])
    · exact ⟨rfl, rfl⟩
  · obtain ⟨g, hw, rfl⟩ | ⟨cause, info, -, rfl⟩ := exec_next_cases h
    · exact hw.scomb_statusLZ_iff
    · cases hF'
  · obtain ⟨z', he⟩ := exec_setLZ z h
    exact ⟨_, he, rfl⟩

end Sys2Proof.Machine
end

section
/-! The host interface (`20_memory.md`): the read map region by region (R53), and what a step makes of a bus write (R51). -/

namespace Sys2Proof.Machine

/-! ### The read map, one lemma per region -/

section ReadMap

variable (g : Gfu) {a : Addr}

theorem toNat_addr {n : Nat} (h : n < 4096) : (BitVec.ofNat 12 n : Addr).toNat = n := Nat.mod_eq_of_lt h

theorem ofNat16_eq {n : Nat} {i : Fin 16} (h : n = i.val) : Fin.ofNat 16 n = i := h ▸ Fin.ofNat_val_eq_self i

theorem Gfu.getLsbD_validByte {base n : Nat} {k : SlotNum} (hn : n < 8) (hk : k.val = base + n) :
    (g.validByte base).getLsbD n = (g.getS k).v := by
  rw [Gfu.validByte, BitVec.getLsbD_ofFnLE, dif_pos hn, ofNat16_eq hk.symm]

theorem Gfu.readByte_e (i : EReg) (ha : a.toNat = i.val) : g.readByte a = g.getE i := by
  simp (disch := omega) only [Gfu.readByte, if_pos]
  rw [ofNat16_eq ha]

theorem Gfu.readByte_fcmd {i : Nat} (hi : i < 4) (ha : a.toNat = 0x014 + i) :
    g.readByte a = g.fcmd.extractLsb' (8 * i) 8 := by
  simp (disch := omega) only [Gfu.readByte, if_pos, if_neg]
  rw [ha, Nat.add_sub_cancel_left]

theorem Gfu.readByte_valid_low : g.readByte 0x018 = g.validByte 0 := rfl

theorem Gfu.readByte_valid_high : g.readByte 0x019 = g.validByte 8 := rfl

theorem Gfu.readByte_pLen (r : PReg) (ha : a.toNat = 0x040 + r.val) :
    g.readByte a = (g.getP r).len.setWidth 8 := by
  simp (disch := omega) only [Gfu.readByte, if_pos, if_neg]
  rw [ofNat16_eq (i := r) (by omega)]

theorem Gfu.readByte_slotLen (k : SlotNum) (ha : a.toNat = 0x050 + k.val) :
    g.readByte a = (g.getS k).payload.len.setWidth 8 := by
  simp (disch := omega) only [Gfu.readByte, if_pos, if_neg]
  rw [ofNat16_eq (i := k) (by omega)]

theorem Gfu.readByte_slotX (k : SlotNum) (ha : a.toNat = 0x060 + k.val) : g.readByte a = (g.getS k).x := by
  simp (disch := omega) only [Gfu.readByte, if_pos, if_neg]
  rw [ofNat16_eq (i := k) (by omega)]

theorem Gfu.readByte_pCoeff (r : PReg) {n : Nat} (hn : n < 64) (ha : a.toNat = 0x400 + 0x40 * r.val + n) :
    g.readByte a = (g.getP r).coeff n := by
  have hpos : (a.toNat - 0x400) % 0x40 = n := by omega
  simp (disch := omega) only [Gfu.readByte, if_pos, if_neg]
  rw [hpos, ofNat16_eq (i := r) (by omega)]

theorem Gfu.readByte_slotCoeff (k : SlotNum) {n : Nat} (hn : n < 64) (ha : a.toNat = 0x800 + 0x40 * k.val + n) :
    g.readByte a = (g.getS k).payload.coeff n := by
  have hpos : (a.toNat - 0x800) % 0x40 = n := by omega
  simp (disch := omega) only [Gfu.readByte, if_pos, if_neg]
  rw [hpos, ofNat16_eq (i := k) (by omega)]

/-- The addresses the table gives no value. -/
theorem Gfu.readByte_unlisted {n : Nat} (ha : a.toNat = n)
    (h : n = 0x013 ∨ (0x01A ≤ n ∧ n ≤ 0x03F) ∨ (0x070 ≤ n ∧ n ≤ 0x3FF) ∨ 0xC00 ≤ n) : g.readByte a = 0x00 := by
  obtain h | h | h | h := h <;> simp (disch := omega) only [Gfu.readByte, if_pos, if_neg]

end ReadMap

/-! ### What a step makes of a bus write -/

section BusWrite

variable {s : State} {a : HostAction} {addr : Addr} {data : List Byte} {rest : List HostAction}

/-- A step performs the oldest pending action on the state without it. -/
theorem step_cons (h : s.pending = a :: rest) : step s = performBy exec a { s with pending := rest } := by
  rw [step, takeActionBy, h]

theorem commandOfWrite_port (b0 b1 b2 b3 : Byte) :
    commandOfWrite 0xFFC [b0, b1, b2, b3] = some (b3 ++ b2 ++ b1 ++ b0) := rfl

theorem commandOfWrite_eq_none (h : addr ≠ 0xFFC ∨ data.length ≠ 4) : commandOfWrite addr data = none :=
  if_neg (not_and_or.mpr h)

theorem performBy_write_of_some {run : Instr → State → Out} {w : Word} (h : commandOfWrite addr data = some w) :
    performBy run (.write addr data) s = performBy run (.cmd w) s := by
  simp only [performBy, h]

theorem performBy_write_of_none {run : Instr → State → Out} (h : commandOfWrite addr data = none) :
    performBy run (.write addr data) s = .next s := by
  simp only [performBy, h]

end BusWrite

/-! ### The obligations -/

/-- Settles O34: each clause is the lemma of its region of the read map. -/
theorem readMapShowsTheState : Obligations.ReadMapShowsTheState := by
  intro g
  refine ⟨?e, ?status, ?cause, ?info, ?gap, ?fcmd, ?validLow, ?validHigh, ?low, ?pLen, ?slotLen, ?slotX, ?mid, ?pCoeff,
    ?slotCoeff, ?high⟩
  case e => exact fun i => g.readByte_e i (toNat_addr (by omega))
  case status => exact g.readByte_status
  case cause | info => rfl
  case gap => exact g.readByte_unlisted rfl (.inl rfl)
  case fcmd => exact fun i hi => g.readByte_fcmd hi (toNat_addr (by omega))
  case validLow => exact fun k hk => g.readByte_valid_low ▸ g.getLsbD_validByte hk (Nat.zero_add _).symm
  case validHigh => exact fun k hk => g.readByte_valid_high ▸ g.getLsbD_validByte (by omega) (by omega)
  case low => exact fun n h1 h2 => g.readByte_unlisted (toNat_addr (by omega)) (by omega)
  case pLen => exact fun r => g.readByte_pLen r (toNat_addr (by omega))
  case slotLen => exact fun k => g.readByte_slotLen k (toNat_addr (by omega))
  case slotX => exact fun k => g.readByte_slotX k (toNat_addr (by omega))
  case mid => exact fun n h1 h2 => g.readByte_unlisted (toNat_addr (by omega)) (by omega)
  case pCoeff => exact fun r n hn => g.readByte_pCoeff r hn (toNat_addr (by omega))
  case slotCoeff => exact fun k n hn => g.readByte_slotCoeff k hn (toNat_addr (by omega))
  case high => exact fun n h1 h2 => g.readByte_unlisted (toNat_addr (by omega)) (by omega)

/-- Settles O37: the port write and the command word it delivers are performed alike; no other write delivers one. -/
theorem onlyTheFourByteWriteAtThePortIsACommand : Obligations.OnlyTheFourByteWriteAtThePortIsACommand := by
  refine ⟨fun s b0 b1 b2 b3 rest h => ?_, fun s addr data rest h hother => ?_, fun g a ha => ?_⟩
  · rw [step_cons h, step_cons (s := { s with pending := _ }) rfl]
    exact performBy_write_of_some (commandOfWrite_port b0 b1 b2 b3)
  · rw [step_cons h]
    exact performBy_write_of_none (commandOfWrite_eq_none hother)
  · exact g.readByte_unlisted rfl (by omega)

end Sys2Proof.Machine
end

section
/-! The reserved opcodes (`30_encoding.md` R74, R81) and the assembler's pseudo-instructions (R85). -/

namespace Sys2Proof.Machine

/-! ### Words with an unassigned opcode -/

section Reserved

variable {w : Word}

/-- The opcodes outside the opcode map: the rest of the families 0x0 to 0x3, and 0x40 upwards (`30_encoding.md` R74). -/
abbrev ReservedOpcode (op : Byte) : Prop :=
  op = 0x00 ∨ (0x04 ≤ op.toNat ∧ op.toNat ≤ 0x0F) ∨ (0x14 ≤ op.toNat ∧ op.toNat ≤ 0x1F) ∨
    (0x24 ≤ op.toNat ∧ op.toNat ≤ 0x2F) ∨ (0x34 ≤ op.toNat ∧ op.toNat ≤ 0x3F) ∨ 0x40 ≤ op.toNat

theorem not_reservedOpcode_of_mem_opcodeTable : ∀ r ∈ opcodeTable, ¬ ReservedOpcode (opField r.value) := by decide

theorem command_or_illegal (x : Decoded) : (∃ i, x = .command i) ∨ (∃ why, x = .illegal why) := by
  cases x with
  | command i => exact .inl ⟨i, rfl⟩
  | illegal why => exact .inr ⟨why, rfl⟩

/-- A word whose opcode is in no row of the opcode map falls through every arm of the decoder. -/
theorem decode_of_unassignedOpcode (h : (opField w).toNat ∉ opcodeTable.map fun r => (opField r.value).toNat) :
    decode w = .illegal .unassignedOpcode := by
  unfold decode
  split
  case h_16 => rfl
  all_goals next hop => exact absurd (hop ▸ by decide) h

theorem decode_of_reservedOpcode (h : ReservedOpcode (opField w)) : decode w = .illegal .unassignedOpcode := by
  refine decode_of_unassignedOpcode fun hmem => ?_
  obtain ⟨r, hr, hop⟩ := List.mem_map.mp hmem
  exact not_reservedOpcode_of_mem_opcodeTable r hr (BitVec.eq_of_toNat_eq hop ▸ h)

end Reserved

/-! ### The commands the mnemonics stand for -/

section Assembler

variable {mnemonic : String} {ops : List (List Char)} {i : Instr}

theorem instrOf_esub (ops : List (List Char)) : instrOf "ESUB" ops = instrOf "EADD" ops :=
  match ops with
  | [] | [_] | [_, _] | [_, _, _] | _ :: _ :: _ :: _ :: _ => rfl

theorem instrOf_psub (ops : List (List Char)) : instrOf "PSUB" ops = instrOf "PADD" ops :=
  match ops with
  | [] | [_] | [_, _] | [_, _, _] | _ :: _ :: _ :: _ :: _ => rfl

theorem immOperand_zero : immOperand ['0'] = some 0 := by decide

theorem instrOf_ezero (d : List Char) : instrOf "EZERO" [d] = instrOf "ELI" [d, ['0']] := by
  simp [instrOf, immOperand_zero]

/-- The arms of `instrOf`: the 15 rows by their number of operands, then the three pseudo-instructions. -/
theorem mnemonic_of_instrOf (h : instrOf mnemonic ops = some i) :
    mnemonic = mnemonicOf i ∨ (mnemonic, mnemonicOf i) ∈ [("ESUB", "EADD"), ("PSUB", "PADD"), ("EZERO", "ELI")] := by
  unfold instrOf at h
  split at h <;> simp only [bind, pure, Option.bind_eq_some_iff, Option.some.injEq, reduceCtorEq] at h
  case h_1 | h_2 | h_3 => exact .inl (h ▸ rfl)
  case h_13 =>
    obtain ⟨_, _, rfl⟩ := h
    exact .inl rfl
  case h_4 | h_7 | h_8 | h_14 | h_15 =>
    obtain ⟨_, _, _, _, rfl⟩ := h
    exact .inl rfl
  case h_5 | h_6 | h_9 | h_10 | h_11 | h_12 =>
    obtain ⟨_, _, _, _, _, _, rfl⟩ := h
    exact .inl rfl
  case h_16 =>
    obtain ⟨_, _, _, _, _, _, rfl⟩ := h
    exact .inr (.head _)
  case h_17 =>
    obtain ⟨_, _, _, _, _, _, rfl⟩ := h
    exact .inr (.tail _ (.head _))
  case h_18 =>
    obtain ⟨_, _, rfl⟩ := h
    exact .inr (.tail _ (.tail _ (.head _)))

end Assembler

/-! ### The obligations -/

/-- Settles O5: the reserved ranges avoid every row of the opcode map, and the decoder refuses what is in no row. -/
theorem reservedOpcodesAreIllegal : Obligations.ReservedOpcodesAreIllegal :=
  fun w => ⟨command_or_illegal (decode w), decode_of_reservedOpcode⟩

/-- Settles O7: a pseudo-instruction already stands for the command of its core form, so the words agree. -/
theorem pseudoInstructionsAssembleToCoreCommands : Obligations.PseudoInstructionsAssembleToCoreCommands :=
  ⟨fun ops => congrArg _ (instrOf_esub ops), fun ops => congrArg _ (instrOf_psub ops),
    fun d => congrArg _ (instrOf_ezero d), fun _ _ _ => mnemonic_of_instrOf⟩

end Sys2Proof.Machine
end

section
/-! The product of the field (`40_field.md` R101): the shift-and-xor loop is the long-division remainder of the product
without carries, for every polynomial of degree 8. -/

namespace Sys2Proof.Machine

/-! ### Adding a constant when a bit is set -/

theorem xor_xor_xor_cancel {w : Nat} (x y z : BitVec w) : x ^^^ y ^^^ (y ^^^ z) = x ^^^ z := by
  rw [BitVec.xor_assoc, ← BitVec.xor_assoc y, BitVec.xor_self, BitVec.zero_xor]

/-- One round of reduction, `xtimes` or long division, is additive: the two corrections cancel when both are made. -/
theorem ite_xor_distrib {w : Nat} (p p' : Bool) (r r' c : BitVec w) :
    (if p ^^ p' then (r ^^^ r') ^^^ c else r ^^^ r') =
      (if p then r ^^^ c else r) ^^^ (if p' then r' ^^^ c else r') := by
  cases p <;> cases p'
  case true.true => simp [BitVec.xor_comm r' c, xor_xor_xor_cancel]
  all_goals simp <;> ac_rfl

theorem getLsbD_ite_xor {w : Nat} (p : Bool) (r c : BitVec w) (j : Nat) :
    (if p then r ^^^ c else r).getLsbD j = (r.getLsbD j ^^ (p && c.getLsbD j)) := by
  cases p <;> simp

/-! ### The remainder -/

section Remainder

variable {poly : BitVec 9}

theorem polyRemLoop_xor (n : Nat) (r r' : BitVec 15) :
    polyRemLoop poly n (r ^^^ r') = polyRemLoop poly n r ^^^ polyRemLoop poly n r' := by
  induction n generalizing r r' with
  | zero => rfl
  | succ n ih => simp only [polyRemLoop, ← ih, BitVec.getLsbD_xor, ite_xor_distrib]

theorem polyRem_xor (r r' : BitVec 15) : polyRem poly (r ^^^ r') = polyRem poly r ^^^ polyRem poly r' := by
  simp [polyRem, polyRemLoop_xor]

/-- The rounds above the degree of the dividend do nothing. -/
theorem polyRemLoop_of_degree_lt {r : BitVec 15} {i : Nat} (h : ∀ j, i + 8 ≤ j → r.getLsbD j = false) (n : Nat) :
    polyRemLoop poly (i + n) r = polyRemLoop poly i r := by
  induction n with
  | zero => rfl
  | succ n ih => simpa [← Nat.add_assoc, polyRemLoop, h (i + n + 8) (by omega)] using ih

/-- `xtimes` seen without dropping bit 8: the polynomial's own bit 8 clears it. -/
theorem setWidth_xtimes (hp : poly.getLsbD 8 = true) (a : Byte) :
    (xtimes poly a).setWidth 15 =
      if a.getLsbD 7 then (a.setWidth 15 <<< 1) ^^^ poly.setWidth 15 else a.setWidth 15 <<< 1 := by
  unfold xtimes
  split <;> refine BitVec.eq_of_getLsbD_eq fun i hi => ?_
  all_goals interval_cases i <;> simp_all

/-- Each round of the division of `a z^(i+1)` is one `xtimes`, and leaves a multiple of `z^i` to divide. -/
theorem polyRemLoop_shiftLeft (hp : poly.getLsbD 8 = true) (a : Byte) {i : Nat} (hi : i < 8) :
    polyRemLoop poly i (a.setWidth 15 <<< i) = ((xtimes poly)^[i] a).setWidth 15 := by
  induction i generalizing a with
  | zero => simp [polyRemLoop]
  | succ i ih =>
    have hbit : (a.setWidth 15 <<< (i + 1)).getLsbD (i + 8) = a.getLsbD 7 := by
      simp [show i + 8 < 15 by omega, show ¬ i + 8 < i + 1 by omega, show i + 8 - (i + 1) = 7 by omega]
    rw [polyRemLoop, Function.iterate_succ_apply, ← ih _ (by omega), setWidth_xtimes hp, hbit, Nat.add_comm i 1,
      BitVec.shiftLeft_add]
    split <;> simp [BitVec.shiftLeft_xor_distrib]

theorem polyRem_shiftLeft (hp : poly.getLsbD 8 = true) (a : Byte) {i : Nat} (hi : i < 8) :
    polyRem poly (a.setWidth 15 <<< i) = (xtimes poly)^[i] a := by
  have hdeg : ∀ j, i + 8 ≤ j → (a.setWidth 15 <<< i).getLsbD j = false := fun j hj => by
    simp [BitVec.getLsbD_of_ge a (j - i) (by omega)]
  obtain ⟨n, hn⟩ := Nat.exists_eq_add_of_le (Nat.le_of_lt_succ hi)
  rw [polyRem, hn, polyRemLoop_of_degree_lt hdeg, polyRemLoop_shiftLeft hp a hi,
    BitVec.setWidth_setWidth_of_le _ (by omega), BitVec.setWidth_eq]

/-! ### The two products -/

/-- Round by round, the loop holds the remainder of the partial product so far. -/
theorem polyRem_partialProduct (hp : poly.getLsbD 8 = true) (a b : Byte) {n i : Nat} (h : i + n ≤ 8) (r : BitVec 15) :
    polyRem poly ((List.range' i n).foldl (fun r i => if b.getLsbD i then r ^^^ (a.setWidth 15 <<< i) else r) r) =
      gfMulLoop poly b n i ((xtimes poly)^[i] a) (polyRem poly r) := by
  induction n generalizing i r with
  | zero => rfl
  | succ n ih =>
    have hi : i < 8 := by omega
    rw [List.range'_succ, List.foldl_cons, ih (by omega), Function.iterate_succ_apply', gfMulLoop,
      ← polyRem_shiftLeft hp a hi, ← polyRem_xor, apply_ite (polyRem poly)]

theorem gfMulBy_eq_polyRem (hp : poly.getLsbD 8 = true) (a b : Byte) :
    gfMulBy poly a b = polyRem poly (carrylessMul a b) := by
  have hzero : polyRem poly 0 = 0 := by simpa using polyRem_shiftLeft hp 0 (show 0 < 8 by omega)
  rw [carrylessMul, List.range_eq_range', polyRem_partialProduct hp a b (Nat.le_refl 8), hzero]
  rfl

end Remainder

/-- Settles O8: each partial product `a z^i` has the remainder the loop's running multiple holds, and remainders add. -/
theorem multiplicationIsCarrylessProductModuloPolynomial :
    Obligations.MultiplicationIsCarrylessProductModuloPolynomial :=
  ⟨fun _ hp => gfMulBy_eq_polyRem hp, gfMulBy_eq_polyRem (by decide)⟩

end Sys2Proof.Machine
end

section
/-! The laws of the field's product (`40_field.md` R108) and of powers, from one fact: what is additive and commutes
with multiplication by z commutes with the whole loop. -/

namespace Sys2Proof.Machine

section Ring

variable (fieldPoly : BitVec 9) (a b c : Byte)

/-! ### The product -/

theorem xtimes_xor : xtimes fieldPoly (a ^^^ b) = xtimes fieldPoly a ^^^ xtimes fieldPoly b := by
  simp only [xtimes, BitVec.getLsbD_xor, BitVec.shiftLeft_xor_distrib, ite_xor_distrib]

theorem gfMulLoop_xor (n i : Nat) (a a' r r' : Byte) :
    gfMulLoop fieldPoly b n i (a ^^^ a') (r ^^^ r') =
      gfMulLoop fieldPoly b n i a r ^^^ gfMulLoop fieldPoly b n i a' r' := by
  induction n generalizing i a a' r r' with
  | zero => rfl
  | succ n ih =>
    simp only [gfMulLoop, xtimes_xor, ← ih]
    split <;> congr 1
    ac_rfl

theorem gfMul_xor_left : gfMul (a ^^^ b) c fieldPoly = gfMul a c fieldPoly ^^^ gfMul b c fieldPoly :=
  gfMulLoop_xor fieldPoly c 8 0 a b 0 0

/-- A map of bytes that is additive and commutes with multiplication by z. -/
structure LinearOver (f : Byte → Byte) : Prop where
  map_xor : ∀ a b, f (a ^^^ b) = f a ^^^ f b
  map_xtimes : ∀ a, f (xtimes fieldPoly a) = xtimes fieldPoly (f a)

variable {fieldPoly} {f : Byte → Byte}

theorem LinearOver.map_gfMulLoop (hf : LinearOver fieldPoly f) (n i : Nat) (a r : Byte) :
    f (gfMulLoop fieldPoly b n i a r) = gfMulLoop fieldPoly b n i (f a) (f r) := by
  induction n generalizing i a r with
  | zero => rfl
  | succ n ih => rw [gfMulLoop, gfMulLoop, ih, hf.map_xtimes, apply_ite f, hf.map_xor]

theorem LinearOver.map_gfMul (hf : LinearOver fieldPoly f) : f (gfMul a b fieldPoly) = gfMul (f a) b fieldPoly := by
  have hzero : f 0 = 0 := by simpa using hf.map_xor 0 0
  rw [gfMul, gfMulBy, hf.map_gfMulLoop, hzero]
  rfl

variable (fieldPoly)

theorem linearOver_xtimes : LinearOver fieldPoly (xtimes fieldPoly) := ⟨xtimes_xor fieldPoly, fun _ => rfl⟩

theorem linearOver_gfMul : LinearOver fieldPoly fun a => gfMul a c fieldPoly :=
  ⟨fun a b => gfMul_xor_left fieldPoly a b c, fun a => ((linearOver_xtimes fieldPoly).map_gfMul a c).symm⟩

theorem gfMul_right_comm :
    gfMul (gfMul a b fieldPoly) c fieldPoly = gfMul (gfMul a c fieldPoly) b fieldPoly :=
  (linearOver_gfMul fieldPoly c).map_gfMul a b

@[simp] theorem gfMul_zero : gfMul a 0#8 fieldPoly = 0 := rfl

@[simp] theorem gfMul_one : gfMul a 1#8 fieldPoly = a := BitVec.zero_xor

/-- The multiples of 0x01 by z, up to z^7, need no reduction, so bit by bit the loop copies `b`. -/
@[simp] theorem one_gfMul : gfMul 1#8 b fieldPoly = b := by
  refine BitVec.eq_of_getLsbD_eq fun j hj => ?_
  simp only [gfMul, gfMulBy, gfMulLoop, getLsbD_ite_xor]
  interval_cases j <;> simp [xtimes]

theorem gfMul_comm : gfMul a b fieldPoly = gfMul b a fieldPoly := by
  simpa using gfMul_right_comm fieldPoly 1#8 a b

@[simp] theorem zero_gfMul : gfMul 0#8 b fieldPoly = 0 := by rw [gfMul_comm, gfMul_zero]

theorem gfMul_assoc : gfMul (gfMul a b fieldPoly) c fieldPoly = gfMul a (gfMul b c fieldPoly) fieldPoly := by
  rw [gfMul_comm _ a b, gfMul_right_comm, gfMul_comm _ a]

theorem gfMul_xor_right : gfMul a (b ^^^ c) fieldPoly = gfMul a b fieldPoly ^^^ gfMul a c fieldPoly := by
  simp only [gfMul_comm fieldPoly a, gfMul_xor_left]

theorem xtimes_eq_gfMul_two : xtimes fieldPoly a = gfMul 2#8 a fieldPoly :=
  calc xtimes fieldPoly a = xtimes fieldPoly (gfMul 1#8 a fieldPoly) := by rw [one_gfMul]
    _ = gfMul 2#8 a fieldPoly := (linearOver_xtimes fieldPoly).map_gfMul 1#8 a

/-! ### Powers -/

variable (m n : Nat)

@[simp] theorem gfPow_zero : gfPow a 0 fieldPoly = 1 := rfl

theorem gfPow_succ : gfPow a (n + 1) fieldPoly = gfMul (gfPow a n fieldPoly) a fieldPoly := rfl

@[simp] theorem gfPow_one : gfPow a 1 fieldPoly = a := one_gfMul fieldPoly a

@[simp] theorem one_gfPow : gfPow 1#8 n fieldPoly = 1 := by
  induction n with
  | zero => rfl
  | succ n ih => rw [gfPow_succ, ih, gfMul_one]

theorem gfPow_add : gfPow a (m + n) fieldPoly = gfMul (gfPow a m fieldPoly) (gfPow a n fieldPoly) fieldPoly := by
  induction n with
  | zero => simp
  | succ n ih => rw [← Nat.add_assoc, gfPow_succ, ih, gfMul_assoc, gfPow_succ]

theorem gfPow_mul : gfPow a (m * n) fieldPoly = gfPow (gfPow a m fieldPoly) n fieldPoly := by
  induction n with
  | zero => rfl
  | succ n ih => rw [Nat.mul_succ, gfPow_add, ih, gfPow_succ]

theorem gfPow_gfMul :
    gfPow (gfMul a b fieldPoly) n fieldPoly = gfMul (gfPow a n fieldPoly) (gfPow b n fieldPoly) fieldPoly := by
  induction n with
  | zero => simp
  | succ n ih => rw [gfPow_succ, ih, ← gfMul_assoc, gfMul_right_comm _ _ _ a, gfMul_assoc, gfPow_succ, gfPow_succ]

/-- Squaring is additive: the two mixed products cancel. -/
theorem gfPow_two_xor : gfPow (a ^^^ b) 2 fieldPoly = gfPow a 2 fieldPoly ^^^ gfPow b 2 fieldPoly := by
  simp only [gfPow_succ, gfPow_zero, BitVec.ofNat_eq_ofNat, one_gfMul, gfMul_xor_left, gfMul_xor_right,
    gfMul_comm fieldPoly b a, xor_xor_xor_cancel]

theorem gfPow_two_pow_xor (k : Nat) :
    gfPow (a ^^^ b) (2 ^ k) fieldPoly = gfPow a (2 ^ k) fieldPoly ^^^ gfPow b (2 ^ k) fieldPoly := by
  induction k with
  | zero => simp
  | succ k ih => simp only [Nat.pow_succ, gfPow_mul, ih, gfPow_two_xor]

end Ring

/-! ### The inverse, in the field of the default polynomial (log entry 1) -/

theorem gfPow_two_256 : gfPow 2#8 256 = 2#8 := by
  rw [show 256 = 4 * 4 * 4 * 4 from rfl, gfPow_mul, gfPow_mul, gfPow_mul]
  simp [gfPow, gfMul, gfMulBy, gfMulLoop, xtimes, Config.fieldPoly]

/-- The power 256 is additive and fixes 0x01 and z, so it fixes every element. -/
theorem gfPow_256 (a : Byte) : gfPow a 256 = a := by
  have hlin : LinearOver Config.fieldPoly fun a => gfPow a 256 :=
    ⟨fun a b => gfPow_two_pow_xor _ a b 8, fun a => by
      simp only [xtimes_eq_gfMul_two, gfPow_gfMul, gfPow_two_256]⟩
  simpa using hlin.map_gfMul 1#8 a

theorem gfPow_254_ne_zero {a : Byte} (h : a ≠ 0) : gfPow a 254 ≠ 0 := fun h0 => h <| by
  rw [← gfPow_256 a, show 256 = 254 + 2 from rfl, gfPow_add, h0]
  exact zero_gfMul _ _

theorem gfPow_254_gfPow_254 (a : Byte) : gfPow (gfPow a 254) 254 = a :=
  calc gfPow (gfPow a 254) 254 = gfPow a (256 * 252 + 4) := (gfPow_mul _ a 254 254).symm
    _ = gfMul (gfPow a 252) (gfPow a 4) := by rw [gfPow_add, gfPow_mul, gfPow_256]
    _ = gfPow a 256 := (gfPow_add _ a 252 4).symm
    _ = a := gfPow_256 a

theorem gfInv_gfInv {a b : Byte} (h : gfInv a = some b) : gfInv b = some a := by
  have ha : a ≠ 0 := fun h0 => nomatch (gfInv_eq_none.mpr h0).symm.trans h
  obtain rfl : gfPow a 254 = b := by simpa [gfInv_of_ne _ ha] using h
  rw [gfInv_of_ne _ (gfPow_254_ne_zero ha), gfPow_254_gfPow_254]

end Sys2Proof.Machine
end

section
/-! The field-element commands ELI, EADD, EMUL, EINV (`40_field.md` R104 to R107). -/

namespace Sys2Proof.Machine

theorem Wrote.exec_eq {s : State} {i : Instr} {g : Gfu} (h : Wrote Config.fieldPoly s.gfu i g) :
    exec i s = .next { s with gfu := g } :=
  (exec_eq_execWith i s).trans h.execWith_eq

theorem Raises.exec_eq {s : State} {i : Instr} {cause : FaultCause} {info : Byte}
    (h : Raises Config.fieldPoly s.gfu i cause info) :
    exec i s = .next { s with gfu := s.gfu.enterFault (encode i) cause info } :=
  (exec_eq_execWith i s).trans h.execWith_eq

/-- Settles O12: completing, ELI makes its one write, whatever the state. -/
theorem eliWritesItsImmediate : Obligations.EliWritesItsImmediate := fun d imm s =>
  ⟨by simp [encode, packWord_eq_fieldsWord, fieldsWord], _, (Wrote.eli d imm).exec_eq, s.gfu.getE_setE_same d imm,
    onlyE_setE s d imm⟩

/-- Settles O13: the sources are read in the state before the write. -/
theorem eaddWritesTheExclusiveOr : Obligations.EaddWritesTheExclusiveOr := fun d a b s =>
  ⟨packWord_eq_fieldsWord _ d a b 0, _, (Wrote.eadd d a b).exec_eq, s.gfu.getE_setE_same d _, onlyE_setE s d _⟩

/-- Settles O14: the corner cases are the laws of 0x00 and 0x01. -/
theorem emulWritesTheFieldProduct : Obligations.EmulWritesTheFieldProduct := fun d a b s => by
  refine ⟨packWord_eq_fieldsWord _ d a b 0, _, (Wrote.emul d a b).exec_eq, s.gfu.getE_setE_same d _, onlyE_setE s d _,
    ?_, ?_, ?_⟩
  · rintro (h | h) <;> simp [h]
  · intro h
    simp [h]
  · intro h
    simp [h]

/-- Settles O15: by whether the source is 0x00, which is when the inverse fails. -/
theorem einvInvertsOrFaults : Obligations.EinvInvertsOrFaults := fun d a s => by
  refine ⟨packWord_eq_fieldsWord _ d a 0 0, fun ha => ?zero, fun ha => ?nonzero⟩
  case zero =>
    exact ⟨_, (Raises.einv d a (gfInv_eq_none.mpr ha)).exec_eq, latchesFault_enterFault s _ .divisionByZero _⟩
  case nonzero =>
    have hb := gfInv_of_ne Config.fieldPoly ha
    have hd := s.gfu.getE_setE_same d (gfPow (s.gfu.getE a) 254)
    refine ⟨_, _, (Wrote.einv d a _ hb).exec_eq, hb, hd, onlyE_setE s d _, fun h1 => ?one, _,
      (Wrote.einv d d _ (hd.symm ▸ gfInv_gfInv hb)).exec_eq, Gfu.getE_setE_same _ d _⟩
    case one =>
      rw [hd, h1]
      exact one_gfPow _ 254

end Sys2Proof.Machine
end

section
/-! The polynomial commands PCLR, PSB, PADD, PSCL (`41_poly.md` R121 to R124). -/

namespace Sys2Proof.Machine

/-! ### The coefficients of a sum and of a multiple -/

section Coefficients

variable (q qa qb : Poly) (k : Byte) (fieldPoly : BitVec 9) {n : Nat}

/-- What a register is written with is zero at and beyond its length (`10_state.md` R26). -/
theorem Poly.coeff_build_of_len_le {len : BitVec 7} (f : Nat → Byte) (h : len.toNat ≤ n) :
    (Poly.build len f).coeff n = 0 := by
  rw [Poly.coeff_build, if_neg (by omega)]

theorem Poly.coeff_add_of_len_le (h : (qa.add qb).len.toNat ≤ n) : (qa.add qb).coeff n = 0 := by
  rw [Poly.len_add] at h
  rw [Poly.add, Poly.coeff_build_of_len_le _ h]

/-- Aligned at their constant terms, the sources' coefficients of one degree stand at one position of the sum. -/
theorem Poly.coeff_add_degree (h64 : (qa.add qb).len.toNat ≤ 64) (hn : n < (qa.add qb).len.toNat) :
    (qa.add qb).coeff ((qa.add qb).len.toNat - 1 - n) = qa.atDegree n ^^^ qb.atDegree n := by
  rw [Poly.len_add] at h64 hn ⊢
  have hdeg : (maxLen qa.len qb.len).toNat - 1 - ((maxLen qa.len qb.len).toNat - 1 - n) = n := by omega
  rw [Poly.add, Poly.coeff_build, if_pos (by omega), hdeg, gfAdd]

theorem Poly.coeff_scale_of_len_le (h : q.len.toNat ≤ n) : (q.scale k fieldPoly).coeff n = 0 :=
  Poly.coeff_build_of_len_le _ h

/-- Above position 63, where nothing is stored, both sides read 0x00. -/
theorem Poly.coeff_scale_of_lt (h : n < q.len.toNat) :
    (q.scale k fieldPoly).coeff n = gfMul (q.coeff n) k fieldPoly := by
  obtain hn | hn := Nat.lt_or_ge n 64
  · rw [Poly.scale, Poly.coeff_build, if_pos ⟨hn, h⟩]
  · rw [Poly.coeff_of_ge _ hn, Poly.coeff_of_ge _ hn]
    exact (zero_gfMul fieldPoly k).symm

theorem Poly.coeff_scale_zero : (q.scale 0 fieldPoly).coeff n = 0 := by
  obtain hn | hn := Nat.lt_or_ge n q.len.toNat
  · exact (q.coeff_scale_of_lt 0 fieldPoly hn).trans (gfMul_zero fieldPoly _)
  · exact q.coeff_scale_of_len_le 0 fieldPoly hn

variable {q}

/-- Scaling by 0x01 rebuilds the padding, so it gives back a polynomial whose padding is zero. -/
theorem Poly.scale_one (hq : q.Ok) : q.scale 1 fieldPoly = q := by
  obtain ⟨-, hpad⟩ := q.ok_iff.mp hq
  refine Poly.ext_coeff (q.len_scale 1 fieldPoly) fun n h64 => ?_
  obtain hn | hn := Nat.lt_or_ge n q.len.toNat
  · exact (q.coeff_scale_of_lt 1 fieldPoly hn).trans (gfMul_one fieldPoly _)
  · rw [q.coeff_scale_of_len_le 1 fieldPoly hn, hpad n h64 hn]

end Coefficients

/-! ### The obligations -/

/-- Settles O16: by whether the length immediate is legal. -/
theorem pclrClearsToTheLengthOrFaults : Obligations.PclrClearsToTheLengthOrFaults := fun d imm s => by
  refine ⟨packWord_eq_fieldsWord _ d 0 0 imm, fun h => ?illegal, fun h => ?legal⟩
  case illegal =>
    have hlen : legalLength imm = false := Bool.eq_false_iff.mpr (mt (legalLength_iff imm).mp (Nat.not_le.mpr h))
    exact ⟨_, (Raises.pclr d imm hlen).exec_eq, latchesFault_enterFault s _ .illegalOperand _⟩
  case legal =>
    refine ⟨_, (Wrote.pclr d imm ((legalLength_iff imm).mpr h)).exec_eq, ?_⟩
    rw [Gfu.getP_setP_same]
    exact ⟨lengthOf_toNat h, fun n _ => Poly.coeff_zeros _ n, onlyP_setP s d _⟩

/-- Settles O17: by whether the position is below the length; a length of at most 64 has no position beyond the
stored bytes. -/
theorem psbSetsOneByteOrFaults : Obligations.PsbSetsOneByteOrFaults := fun d m imm s => by
  refine ⟨packWordXI_eq_fieldsWordXI _ d m imm, fun h => ?beyond, fun h h64 => ?below⟩
  case beyond =>
    have hpos : legalPosition (s.gfu.getP d) m = false :=
      Bool.eq_false_iff.mpr (mt (legalPosition_iff _ m).mp (Nat.not_lt.mpr h))
    exact ⟨_, (Raises.psb d m imm hpos).exec_eq, latchesFault_enterFault s _ .illegalOperand _⟩
  case below =>
    refine ⟨_, (Wrote.psb d m imm ((legalPosition_iff _ m).mpr h)).exec_eq, ?_⟩
    rw [Gfu.getP_setP_same]
    refine ⟨?_, Poly.len_setCoeff _ _ _, fun n hn => ?_, onlyP_setP s d _, s.gfu.readByte_setCoeff d m.toNat imm⟩
    · rw [Poly.coeff_setCoeff, if_pos ⟨rfl, by omega⟩]
    · rw [Poly.coeff_setCoeff, if_neg fun hm => hn hm.1]

/-- Settles O18: the sum's length is the larger one, so every degree below it stands at a position of the register. -/
theorem paddAddsByDegree : Obligations.PaddAddsByDegree := fun d a b s ha hb => by
  have hlen : ((s.gfu.getP a).add (s.gfu.getP b)).len.toNat =
      max (s.gfu.getP a).len.toNat (s.gfu.getP b).len.toNat := by
    rw [Poly.len_add, maxLen_toNat]
  refine ⟨packWord_eq_fieldsWord _ d a b 0, _, (Wrote.padd d a b).exec_eq, ?_⟩
  rw [Gfu.getP_setP_same]
  exact ⟨hlen, fun k hk => Poly.coeff_add_degree _ _ (by omega) hk, fun n hn => Poly.coeff_add_of_len_le _ _ hn,
    onlyP_setP s d _⟩

/-- Settles O19: the corner cases are the multiples by 0x00 and 0x01. -/
theorem psclScalesEachCoefficient : Obligations.PsclScalesEachCoefficient := fun d a b s => by
  refine ⟨packWord_eq_fieldsWord _ d a b 0, _, (Wrote.pscl d a b).exec_eq, ?_⟩
  rw [Gfu.getP_setP_same]
  refine ⟨Poly.len_scale _ _ _, fun n => Poly.coeff_scale_of_lt _ _ _, fun n => Poly.coeff_scale_of_len_le _ _ _,
    onlyP_setP s d _, fun h0 n => ?zero, fun h1 hok => ?one⟩
  case zero =>
    rw [h0]
    exact Poly.coeff_scale_zero _ _
  case one =>
    rw [h1]
    exact Poly.scale_one _ hok

end Sys2Proof.Machine
end

section
/-! The field has no zero divisors, in the field of the default polynomial (log entry 1), and products of lists of
field elements. -/

namespace Sys2Proof.Machine

/-! ### No zero divisors -/

/-- The field's only idempotents are 0x00 and 0x01, by its 256 elements. -/
theorem gfMul_self_eq_self {a : Byte} : gfMul a a = a → a = 0 ∨ a = 1 := by
  revert a
  decide +kernel

/-- The power 255 is its own square, so it is 0x00 or 0x01, and 0x00 it is not, since the power 256 is the element. -/
theorem gfPow_255 {a : Byte} (h : a ≠ 0) : gfPow a 255 = 1 := by
  have hsq : gfMul (gfPow a 255) (gfPow a 255) = gfPow a 255 := by
    rw [← gfPow_add, show 255 + 255 = 254 + 256 from rfl, gfPow_add, gfPow_256, ← gfPow_succ]
  refine (gfMul_self_eq_self hsq).resolve_left fun h0 => h ?_
  rw [← gfPow_256 a, gfPow_succ, h0]
  exact zero_gfMul _ a

theorem gfMul_eq_zero_iff {a b : Byte} : gfMul a b = 0 ↔ a = 0 ∨ b = 0 := by
  refine ⟨fun h => or_iff_not_imp_left.mpr fun ha => ?_, ?_⟩
  · calc b = gfMul 1 b := (one_gfMul _ b).symm
      _ = gfMul (gfPow a 254) (gfMul a b) := by rw [← gfPow_255 ha, gfPow_succ, gfMul_assoc]
      _ = 0 := by rw [h]; exact gfMul_zero _ _
  · rintro (rfl | rfl)
    · exact zero_gfMul _ b
    · exact gfMul_zero _ a

/-! ### The product of a list -/

/-- The product of field elements, multiplied one after the other into 0x01 (`42_shamir.md` R150). -/
def gfProd (l : List Byte) (fieldPoly : BitVec 9 := Config.fieldPoly) : Byte :=
  l.foldl (fun x y => gfMul x y fieldPoly) 0x01

section Product

variable (fieldPoly : BitVec 9)

@[simp] theorem gfProd_nil : gfProd [] fieldPoly = 1 := rfl

@[simp] theorem gfProd_cons (a : Byte) (l : List Byte) :
    gfProd (a :: l) fieldPoly = gfMul a (gfProd l fieldPoly) fieldPoly := by
  have hone : gfMul 1 a fieldPoly = gfMul a 1 fieldPoly := gfMul_comm fieldPoly 1 a
  rw [gfProd, List.foldl_cons, hone, gfProd]
  exact List.foldl_hom (gfMul a · fieldPoly) fun x y => gfMul_assoc fieldPoly a x y

theorem gfProd_perm {l l' : List Byte} (h : l.Perm l') : gfProd l fieldPoly = gfProd l' fieldPoly :=
  h.foldl_eq' (fun x _ y _ z => gfMul_right_comm fieldPoly z x y) _

end Product

theorem gfProd_eq_zero_iff (l : List Byte) : gfProd l = 0 ↔ 0 ∈ l := by
  induction l with
  | nil => simp
  | cons a l ih => rw [gfProd_cons, gfMul_eq_zero_iff, ih, List.mem_cons, eq_comm]

end Sys2Proof.Machine
end

section
/-! The arithmetic of the combiner (`42_shamir.md` R140, R150, R152): numerator, denominators and Lagrange coefficients as
products, and the combiner's loop slot by slot. -/

namespace Sys2Proof.Machine

/-! ### Numerator, denominators and Lagrange coefficients -/

section Lagrange

variable (g : Gfu) (K : List SlotNum) (i : SlotNum) (fieldPoly : BitVec 9)

theorem Gfu.numerator_eq_gfProd : g.numerator K fieldPoly = gfProd (K.map fun k => (g.getS k).x) fieldPoly := by
  rw [gfProd, List.foldl_map, Gfu.numerator]

/-- Leaving a slot out of the product is leaving it out of the list. -/
theorem Gfu.denominator_eq_gfProd :
    g.denominator K i fieldPoly =
      gfProd ((K.filter (· ≠ i)).map fun j => (g.getS j).x ^^^ (g.getS i).x) fieldPoly := by
  simp only [gfProd, List.foldl_map, List.foldl_filter, Gfu.denominator, gfAdd, decide_eq_true_eq, ite_not]

theorem Gfu.lagrange_eq_none_iff : g.lagrange K i fieldPoly = none ↔ g.denominator K i fieldPoly = 0 := by
  rw [Gfu.lagrange, Option.map_eq_none_iff, gfInv_eq_none]

variable {g K i}

theorem Gfu.lagrange_of_gfInv {b : Byte} (h : gfInv (g.denominator K i fieldPoly) fieldPoly = some b) :
    g.lagrange K i fieldPoly = some (gfMul (g.numerator K fieldPoly) b fieldPoly) := by
  rw [Gfu.lagrange, h, Option.map_some]

theorem Gfu.numerator_perm {K' : List SlotNum} (h : K.Perm K') :
    g.numerator K fieldPoly = g.numerator K' fieldPoly := by
  rw [g.numerator_eq_gfProd, g.numerator_eq_gfProd, gfProd_perm _ (h.map _)]

theorem Gfu.denominator_perm {K' : List SlotNum} (h : K.Perm K') :
    g.denominator K i fieldPoly = g.denominator K' i fieldPoly := by
  rw [g.denominator_eq_gfProd, g.denominator_eq_gfProd, gfProd_perm _ ((h.filter _).map _)]

variable (g i)

@[simp] theorem Gfu.numerator_singleton : g.numerator [i] fieldPoly = (g.getS i).x := by
  simp [g.numerator_eq_gfProd]

@[simp] theorem Gfu.denominator_singleton : g.denominator [i] i fieldPoly = 1 := by
  simp [g.denominator_eq_gfProd]

end Lagrange

/-- A slot whose index stands in another slot of K has a difference 0x00 among its factors (log entry 1). -/
theorem Gfu.denominator_eq_zero_iff (g : Gfu) (K : List SlotNum) (i : SlotNum) :
    g.denominator K i = 0 ↔ ∃ j ∈ K, j ≠ i ∧ (g.getS j).x = (g.getS i).x := by
  rw [g.denominator_eq_gfProd, gfProd_eq_zero_iff]
  simp [and_assoc]

/-- With no index 0x00 in K the numerator, and so each coefficient, is a product of nonzero factors (log entry 1). -/
theorem Gfu.gfMul_numerator_ne_zero {g : Gfu} {K : List SlotNum} {i : SlotNum} {b : Byte}
    (hx : ∀ k ∈ K, (g.getS k).x ≠ 0) (hb : gfInv (g.denominator K i) = some b) : gfMul (g.numerator K) b ≠ 0 := by
  have hN : g.numerator K ≠ 0 := by
    rw [g.numerator_eq_gfProd, Ne, gfProd_eq_zero_iff]
    simpa using hx
  have hb0 : b ≠ 0 := fun h0 => nomatch (gfInv_eq_none.mpr h0).symm.trans (gfInv_gfInv hb)
  exact gfMul_eq_zero_iff.not.mpr (not_or.mpr ⟨hN, hb0⟩)

/-! ### The working set and its lengths -/

theorem Gfu.mem_workingSet (g : Gfu) (k : SlotNum) : k ∈ g.workingSet ↔ (g.getS k).v = true := by
  simp [Gfu.workingSet]

theorem Gfu.workingSet_pairwise (g : Gfu) : g.workingSet.Pairwise (· < ·) :=
  (List.pairwise_lt_finRange 16).filter _

theorem Gfu.unequalLengths_iff (g : Gfu) (K : List SlotNum) :
    g.unequalLengths K = true ↔ ∃ k ∈ K, ∃ j ∈ K, (g.getS k).payload.len ≠ (g.getS j).payload.len := by
  cases K with
  | nil => simp [Gfu.unequalLengths]
  | cons k₀ K =>
    simp only [Gfu.unequalLengths, Gfu.commonLen, List.any_eq_true, bne_iff_ne]
    refine ⟨fun ⟨k, hk, hne⟩ => ⟨k, hk, k₀, List.mem_cons_self, hne⟩, fun ⟨k, hk, j, hj, hne⟩ => ?_⟩
    by_cases h : (g.getS k).payload.len = (g.getS k₀).payload.len
    · exact ⟨j, hj, h ▸ hne.symm⟩
    · exact ⟨k, hk, h⟩

/-! ### The combiner's loop -/

section Loop

variable {g : Gfu} {K todo : List SlotNum} {fieldPoly : BitVec 9}

/-- Above position 63, where nothing is stored, both sides read 0x00. -/
theorem Poly.coeff_addTerm_of_lt (acc y : Poly) (lc : Byte) (fieldPoly : BitVec 9) {n : Nat} (h : n < acc.len.toNat) :
    (acc.addTerm y lc fieldPoly).coeff n = acc.coeff n ^^^ gfMul (y.coeff n) lc fieldPoly := by
  obtain hn | hn := Nat.lt_or_ge n 64
  · rw [Poly.addTerm, Poly.coeff_build, if_pos ⟨hn, h⟩, gfAdd]
  · rw [Poly.coeff_of_ge _ hn, Poly.coeff_of_ge _ hn, Poly.coeff_of_ge _ hn]
    simp

theorem Poly.coeff_addTerm_of_len_le (acc y : Poly) (lc : Byte) (fieldPoly : BitVec 9) {n : Nat}
    (h : acc.len.toNat ≤ n) : (acc.addTerm y lc fieldPoly).coeff n = 0 :=
  Poly.coeff_build_of_len_le _ h

theorem Gfu.combineLoop_cons_of_none {i : SlotNum} (h : g.lagrange K i fieldPoly = none) (acc : Poly) :
    g.combineLoop K (i :: todo) acc fieldPoly = .error i := by
  rw [Gfu.combineLoop, h]

theorem Gfu.combineLoop_cons_of_some {i : SlotNum} {lc : Byte} (h : g.lagrange K i fieldPoly = some lc) (acc : Poly) :
    g.combineLoop K (i :: todo) acc fieldPoly =
      g.combineLoop K todo (acc.addTerm (g.getS i).payload lc fieldPoly) fieldPoly := by
  rw [Gfu.combineLoop, h]

/-- With a coefficient for every slot to visit the loop completes, each slot's term added to the accumulator. -/
theorem Gfu.combineLoop_ok {lc : SlotNum → Byte} (hlc : ∀ i ∈ todo, g.lagrange K i fieldPoly = some (lc i))
    (acc : Poly) :
    ∃ q, g.combineLoop K todo acc fieldPoly = .ok q ∧
      (∀ n, n < acc.len.toNat → q.coeff n =
        (todo.map fun i => gfMul ((g.getS i).payload.coeff n) (lc i) fieldPoly).foldl (· ^^^ ·) (acc.coeff n)) ∧
      (∀ n, acc.len.toNat ≤ n → acc.coeff n = 0 → q.coeff n = 0) := by
  induction todo generalizing acc with
  | nil => exact ⟨acc, rfl, fun _ _ => rfl, fun _ _ h => h⟩
  | cons i rest ih =>
    obtain ⟨hi, hrest⟩ := List.forall_mem_cons.mp hlc
    obtain ⟨q, hq, hsum, hpad⟩ := ih hrest (acc.addTerm (g.getS i).payload (lc i) fieldPoly)
    rw [Poly.len_addTerm] at hsum hpad
    refine ⟨q, (Gfu.combineLoop_cons_of_some hi acc).trans hq, fun n hn => ?_, fun n hn _ => ?_⟩
    · rw [hsum n hn, Poly.coeff_addTerm_of_lt _ _ _ _ hn, List.map_cons, List.foldl_cons]
    · exact hpad n hn (Poly.coeff_addTerm_of_len_le _ _ _ _ hn)

/-- Visiting the slots in ascending order the loop fails at the lowest one that has no coefficient. -/
theorem Gfu.combineLoop_lowest_error (hasc : todo.Pairwise (· < ·)) {i : SlotNum} (hi : i ∈ todo)
    (hnone : g.lagrange K i fieldPoly = none) (hlow : ∀ j ∈ todo, j < i → g.lagrange K j fieldPoly ≠ none)
    (acc : Poly) : g.combineLoop K todo acc fieldPoly = .error i := by
  induction todo generalizing acc with
  | nil => cases hi
  | cons j rest ih =>
    obtain ⟨hj, hasc⟩ := List.pairwise_cons.mp hasc
    obtain ⟨hlowj, hlow⟩ := List.forall_mem_cons.mp hlow
    obtain rfl | hi := List.mem_cons.mp hi
    · exact Gfu.combineLoop_cons_of_none hnone acc
    · obtain ⟨lc, hlc⟩ := Option.ne_none_iff_exists'.mp (hlowj (hj i hi))
      rw [Gfu.combineLoop_cons_of_some hlc]
      exact ih hasc hi hlow _

/-- The combine of shares of one length, each with a coefficient: byte by byte the sum of the terms, the padding zero. -/
theorem Gfu.combine_ok {lc : SlotNum → Byte} {L : BitVec 7} (hK : K ≠ [])
    (hlen : ∀ k ∈ K, (g.getS k).payload.len = L) (hlc : ∀ i ∈ K, g.lagrange K i fieldPoly = some (lc i)) :
    ∃ q, g.combine K fieldPoly = .ok q ∧ q.len = L ∧
      (∀ n, n < L.toNat → q.coeff n =
        (K.map fun i => gfMul ((g.getS i).payload.coeff n) (lc i) fieldPoly).foldl (· ^^^ ·) 0) ∧
      (∀ n, L.toNat ≤ n → q.coeff n = 0) := by
  have hL : g.commonLen K = L := by
    obtain ⟨k, K, rfl⟩ := List.exists_cons_of_ne_nil hK
    exact hlen k List.mem_cons_self
  obtain ⟨q, hq, hsum, hpad⟩ := Gfu.combineLoop_ok hlc (Poly.zeros L)
  simp only [Poly.len_zeros, Poly.coeff_zeros, forall_const] at hsum hpad
  rw [Gfu.combine, hL]
  exact ⟨q, hq, g.len_of_combineLoop K fieldPoly K _ q hq, hsum, hpad⟩

end Loop

end Sys2Proof.Machine
end

section
/-! The share table and the combiner commands SLD, SCLR, SLC, SCOMB (`42_shamir.md` R141, R142, R150 to R152). -/

namespace Sys2Proof.Machine

theorem legalIndex_eq_false_iff (imm : Byte) : legalIndex imm = false ↔ imm.toNat < 1 ∨ 16 < imm.toNat := by
  rw [Bool.eq_false_iff, Ne, legalIndex_iff]
  omega

theorem legalThreshold_eq_false_iff (imm : Byte) : legalThreshold imm = false ↔ imm.toNat < 1 ∨ 16 < imm.toNat := by
  rw [Bool.eq_false_iff, Ne, legalThreshold_iff]
  omega

@[simp] theorem Gfu.setS_getS (g : Gfu) (k : SlotNum) : g.setS k (g.getS k) = g := by
  simp [Gfu.setS, Gfu.getS]

/-- Settles O20: the refusals of the rule are those the command raises, and the slot holds the register's polynomial. -/
theorem sldLoadsAnEmptySlotOrFaults : Obligations.SldLoadsAnEmptySlotOrFaults := fun d a imm s => by
  refine ⟨by simp [encode, packWord_eq_fieldsWord, fieldsWord], fun h => ?refused, fun h1 h16 hlen hv => ?loads⟩
  case refused =>
    rw [← or_assoc, ← legalIndex_eq_false_iff] at h
    exact ⟨_, (Raises.sld d a imm h).exec_eq, latchesFault_enterFault s _ .illegalOperand _⟩
  case loads =>
    refine ⟨_, (Wrote.sld d a imm ((legalIndex_iff imm).mpr ⟨h1, h16⟩) hlen hv).exec_eq, ?_⟩
    rw [Gfu.getS_setS_same]
    exact ⟨rfl, rfl, rfl, fun _ _ => rfl, onlyS_setS s d _⟩

/-- Settles O21: a slot that is not valid and meets the invariant is already the empty one. -/
theorem sclrEmptiesTheSlot : Obligations.SclrEmptiesTheSlot := fun d s => by
  refine ⟨packWord_eq_fieldsWord _ d 0 0 0, _, (Wrote.sclr d).exec_eq, ?_⟩
  rw [Gfu.getS_setS_same]
  refine ⟨rfl, rfl, rfl, fun n _ => Poly.coeff_empty n, onlyS_setS s d _, fun hv ⟨_, _, hempty⟩ => ?_⟩
  rw [← hempty hv, Gfu.setS_getS]

/-- Settles O23: numerator and denominator are products of lists, so the laws of such products speak of them. -/
theorem numeratorAndDenominatorAreTheProducts : Obligations.NumeratorAndDenominatorAreTheProducts := fun g K i =>
  ⟨g.numerator_eq_gfProd K _, g.denominator_eq_gfProd K i _, (g.lagrange_eq_none_iff K i _).mpr,
    fun _ hb => Gfu.lagrange_of_gfInv _ hb, g.denominator_singleton i _, (g.denominator_eq_zero_iff K i).mpr,
    fun _ hK => ⟨Gfu.numerator_perm _ hK, Gfu.denominator_perm _ hK⟩⟩

/-- Settles O25: by whether the slot is valid, and then by whether its denominator is zero; for a sole slot the numerator
is its index and the denominator 0x01. -/
theorem slcWritesTheLagrangeCoefficientOrFaults : Obligations.SlcWritesTheLagrangeCoefficientOrFaults := fun d a s => by
  refine ⟨packWord_eq_fieldsWord _ d a 0 0, fun hv => ?empty, fun hv hD => ?zero, fun hv hD => ?completes⟩
  case empty => exact ⟨_, (Raises.slcEmpty d a hv).exec_eq, latchesFault_enterFault s _ .illegalOperand _⟩
  case zero =>
    have hnone := (s.gfu.lagrange_eq_none_iff s.gfu.workingSet a _).mpr hD
    exact ⟨_, (Raises.slcZero d a hv hnone).exec_eq, latchesFault_enterFault s _ .divisionByZero _⟩
  case completes =>
    have hb := gfInv_of_ne Config.fieldPoly hD
    refine ⟨_, _, (Wrote.slc d a _ hv (Gfu.lagrange_of_gfInv _ hb)).exec_eq, hb, ?_⟩
    rw [Gfu.getE_setE_same]
    refine ⟨rfl, onlyE_setE s d _, fun hK => ?sole, fun ⟨_, hslots, _⟩ => ?nonzero⟩
    case sole => simp [hK]
    case nonzero =>
      refine Gfu.gfMul_numerator_ne_zero (fun k hk h0 => ?_) hb
      obtain ⟨-, hvalid, -⟩ := hslots k
      obtain ⟨hx, -, -⟩ := hvalid ((s.gfu.mem_workingSet k).mp hk)
      rw [h0] at hx
      exact absurd hx (by decide)

/-- Settles O26: by the checks of the command in their order, then by whether some slot has no coefficient. -/
theorem scombCombinesTheSharesOrFaults : Obligations.ScombCombinesTheSharesOrFaults := by
  rintro d imm s K rfl
  refine ⟨by simp [encode, packWord_eq_fieldsWord, fieldsWord], fun h => ?refused, fun L h1 h16 hn hlen => ?legal⟩
  case refused =>
    rw [← or_assoc, ← legalThreshold_eq_false_iff, ← Gfu.unequalLengths_iff] at h
    exact ⟨_, (Raises.scomb d imm h).exec_eq, latchesFault_enterFault s _ .illegalOperand _⟩
  case legal =>
    have ht := (legalThreshold_iff imm).mpr ⟨h1, h16⟩
    have hl : s.gfu.unequalLengths s.gfu.workingSet = false := by
      rw [Bool.eq_false_iff, Ne, Gfu.unequalLengths_iff]
      exact fun ⟨k, hk, j, hj, hne⟩ => hne ((hlen k hk).trans (hlen j hj).symm)
    refine ⟨fun i hi hD hlow => ?zero, fun hD => ?completes⟩
    case zero =>
      have hlag := s.gfu.lagrange_eq_none_iff s.gfu.workingSet (fieldPoly := Config.fieldPoly)
      have herr : s.gfu.combine s.gfu.workingSet = .error i :=
        Gfu.combineLoop_lowest_error s.gfu.workingSet_pairwise hi ((hlag i).mpr hD)
          (fun j hj hji => (hlag j).not.mpr (hlow j hj hji)) _
      exact ⟨_, (Raises.scombZero d imm i ht hn hl herr).exec_eq, latchesFault_enterFault s _ .divisionByZero _⟩
    case completes =>
      have hK : s.gfu.workingSet ≠ [] := List.ne_nil_of_length_pos (by omega)
      have hinv i hi := gfInv_of_ne Config.fieldPoly (hD i hi)
      obtain ⟨q, hq, hqlen, hsum, hpad⟩ := Gfu.combine_ok hK hlen fun i hi => Gfu.lagrange_of_gfInv _ (hinv i hi)
      refine ⟨_, _, (Wrote.scomb d imm q ht hn hl hq).exec_eq, fun i hi => ⟨_, hinv i hi, rfl⟩, ?_⟩
      rw [Gfu.getP_setLZ, Gfu.getP_setP_same]
      refine ⟨hqlen, hsum, hpad, by simp [leadingZero], onlyPAndLZ_setP s d q _, fun k hk n hnL => ?_⟩
      rw [hsum n hnL, gfMul_comm]
      simp [hk]

end Sys2Proof.Machine
end

section
/-! The system commands NOP and CLRF (`43_system.md` R170, R171), and what the command port does with a word while no fault
is latched (`60_exceptions.md` R181, R187). -/

namespace Sys2Proof.Machine

/-! ### Words of format N -/

section FormatN

variable {w : Word}

/-- A word of format N is its opcode and zeros (`30_encoding.md` R71). -/
theorem eq_packWord_of_unusedZero_fN (h : Format.fN.unusedZero w = true) : w = packWord (opField w) 0 0 0 0 := by
  simp only [Format.unusedZero, Bool.and_eq_true, beq_iff_eq] at h
  obtain ⟨⟨⟨⟨hd, ha⟩, hb⟩, hz⟩, himm⟩ := h
  simpa [hd, ha, hb, himm] using (packWord_fields w hz).symm

theorem decode_of_opField_nop (h : opField w = 0x01) : decode w = ofFormat .fN w .nop := by
  simp [decode, h]

theorem ofFormat_of_unusedZero_false {fmt : Format} {i : Instr} (h : fmt.unusedZero w = false) :
    ofFormat fmt w i = .illegal .reservedBitSet := by
  simp [ofFormat, h]

end FormatN

/-! ### The command port while no fault is latched -/

section Port

variable {w : Word} {s t : State}

/-- A word given to a unit with no fault latched: a command completes with its write or latches its own fault, and an
illegal word latches IllegalCommand (`60_exceptions.md` R181, R187). -/
theorem hostCmd_cases_of_unlatched (hF : s.gfu.statusF = false) :
    (∃ i g, decode w = .command i ∧ Wrote Config.fieldPoly s.gfu i g ∧ hostCmd w s = .next { s with gfu := g }) ∨
    (∃ i cause info, decode w = .command i ∧ Raises Config.fieldPoly s.gfu i cause info ∧
      hostCmd w s = .next { s with gfu := s.gfu.enterFault (encode i) cause info }) ∨
    (∃ why, decode w = .illegal why ∧
      hostCmd w s = .next { s with gfu := s.gfu.enterFault w .illegalCommand 0 }) := by
  obtain ⟨i, hi⟩ | ⟨why, hwhy⟩ := command_or_illegal (decode w)
  · have hrun : hostCmd w s = exec i s := by simp [hostCmd, hostCmdBy, hF, hi]
    rw [hrun]
    obtain ⟨g, hw, he⟩ | ⟨cause, info, hr, he⟩ := exec_cases i s
    · exact .inl ⟨i, g, hi, hw, he⟩
    · exact .inr (.inl ⟨i, cause, info, hi, hr, he⟩)
  · exact .inr (.inr ⟨why, hwhy, by simp [hostCmd, hostCmdBy, hF, hwhy]⟩)

theorem Wrote.statusF_eq_false {fieldPoly : BitVec 9} {g g' : Gfu} {i : Instr} (h : Wrote fieldPoly g i g')
    (hF : g.statusF = false) : g'.statusF = false := by
  obtain hsame | ⟨-, hclear⟩ := h.statusF_cases
  · exact hsame.trans hF
  · exact hclear

/-- A fault that a word latches is a fault entry: only a command that completes does otherwise, and that latches none. -/
theorem eq_enterFault_of_hostCmd_latches (hF : s.gfu.statusF = false) (h : hostCmd w s = .next t)
    (ht : t.gfu.statusF = true) :
    ∃ (v : Word) (cause : FaultCause) (info : Byte), t = { s with gfu := s.gfu.enterFault v cause info } := by
  obtain ⟨i, g, -, hw, he⟩ | ⟨i, cause, info, -, -, he⟩ | ⟨why, -, he⟩ := hostCmd_cases_of_unlatched (w := w) hF
  all_goals obtain rfl := Host.Outcome.next.inj (h.symm.trans he)
  case inl => exact absurd (ht.symm.trans (hw.statusF_eq_false hF)) (by decide)
  case inr.inl => exact ⟨_, _, _, rfl⟩
  case inr.inr => exact ⟨_, _, _, rfl⟩

end Port

/-! ### Clearing the fault latch -/

section Clear

variable {g : Gfu}

@[simp] theorem Gfu.clearFault_enterFault (w : Word) (cause : FaultCause) (info : Byte) :
    (g.enterFault w cause info).clearFault = g.clearFault := rfl

/-- With no fault latched the other fault registers hold zero already (`10_state.md` R34 to R36). -/
theorem Gfu.clearFault_of_unlatched (hF : g.statusF = false) (hok : g.LatchOk) : g.clearFault = g := by
  obtain ⟨hzero, -⟩ := hok
  obtain ⟨hcause, hinfo, hcmd⟩ := hzero hF
  exact Gfu.ext_get (fun _ => rfl) (fun _ => rfl) (fun _ => rfl) hF.symm rfl hcause.symm hinfo.symm hcmd.symm

theorem exec_clrf (s : State) : exec .clrf s = .next { s with gfu := s.gfu.clearFault } :=
  Wrote.cleared.exec_eq

end Clear

/-! ### The obligations -/

/-- Settles O31: a fault entry writes the latch alone, and clearing the latch undoes it where the latch was zero. -/
theorem clrfClearsTheLatchAlone : Obligations.ClrfClearsTheLatchAlone := by
  refine ⟨by decide, fun s => ⟨_, exec_clrf s, rfl, rfl, rfl, rfl, onlyLatch_clearFault s, ?unlatched, ?undoes⟩⟩
  case unlatched =>
    intro hF hok
    rw [Gfu.clearFault_of_unlatched hF hok]
  case undoes =>
    rintro w f ⟨-, -, hok⟩ hF hcmd hf
    obtain ⟨v, cause, info, rfl⟩ := eq_enterFault_of_hostCmd_latches hF hcmd hf
    rw [exec_clrf, Gfu.clearFault_enterFault, Gfu.clearFault_of_unlatched hF hok]

/-- Settles O30: NOP is the one word of its format with its opcode. -/
theorem nopChangesNothing : Obligations.NopChangesNothing := by
  refine ⟨by decide, fun s => Wrote.nothing.exec_eq, fun w hop hne => ?_⟩
  have hbits : Format.fN.unusedZero w = false := by
    refine Bool.eq_false_iff.mpr fun h => hne ?_
    calc w = packWord (opField w) 0 0 0 0 := eq_packWord_of_unusedZero_fN h
      _ = packWord 0x01 0 0 0 0 := by rw [hop]
      _ = 0x01000000 := by decide
  rw [decode_of_opField_nop hop, ofFormat_of_unusedZero_false hbits]

end Sys2Proof.Machine
end

section
/-! A word that decodes to a command matches a row of the opcode map (`30_encoding.md` R71, R75). -/

namespace Sys2Proof

section Rows

variable {w : Word} {fmt : Format} {i j : Instr}

/-- The mask that fixes the opcode and `z`, and of the other fields the bits given (`30_encoding.md` R70). -/
def maskFields (d a b : BitVec 4) (imm : Byte) : Word :=
  BitVec.allOnes 8 ++ d ++ a ++ b ++ BitVec.allOnes 4 ++ imm

/-- The bits a command of the format fixes: the opcode, `z` and each field the format leaves unused (`30_encoding.md`
R71). -/
def Format.mask : Format → Word
  | .fN => maskFields (.allOnes 4) (.allOnes 4) (.allOnes 4) (.allOnes 8)
  | .fR1 => maskFields 0 (.allOnes 4) (.allOnes 4) (.allOnes 8)
  | .fR2 => maskFields 0 0 (.allOnes 4) (.allOnes 8)
  | .fR3 => maskFields 0 0 0 (.allOnes 8)
  | .fI => maskFields 0 (.allOnes 4) (.allOnes 4) 0
  | .fRI => maskFields 0 0 (.allOnes 4) 0
  | .fXI => maskFields 0 0 0 0

/-- A mask acts on each field of a word by itself. -/
theorem packWord_and_maskFields (op : Byte) (d a b : Fin 16) (imm : Byte) (md ma mb : BitVec 4) (mi : Byte) :
    packWord op d a b imm &&& maskFields md ma mb mi =
      packWord op (.ofFin d &&& md : BitVec 4).toFin (.ofFin a &&& ma : BitVec 4).toFin
        (.ofFin b &&& mb : BitVec 4).toFin (imm &&& mi) := by
  change (_ : BitVec (8 + 4 + 4 + 4 + 4 + 8)) &&& _ = _
  simp only [packWord, maskFields, BitVec.and_append, BitVec.and_allOnes, BitVec.ofFin_toFin]

theorem zField_of_unusedZero (h : fmt.unusedZero w = true) : zField w = 0 := by
  cases fmt <;> simp_all [Format.unusedZero]

/-- Of a word whose unused fields are zero the mask leaves the opcode alone: each other field is zero or masked off. -/
theorem and_mask_of_unusedZero (h : fmt.unusedZero w = true) : w &&& fmt.mask = packWord (opField w) 0 0 0 0 := by
  rw [← congrArg (· &&& fmt.mask) (packWord_fields w (zField_of_unusedZero h))]
  cases fmt <;> simp_all [Format.unusedZero, Format.mask, packWord_and_maskFields]

/-- One arm of `decode`: a command of format `fmt` and opcode `n`, where some row of the opcode map has that opcode and the
format's mask. -/
theorem legalWord_of_ofFormat {n : Nat} (hop : (opField w).toNat = n)
    (hrow : (packWord (.ofNat 8 n) 0 0 0 0, fmt.mask) ∈ opcodeTable.map fun r => (r.value, r.mask))
    (h : ofFormat fmt w i = .command j) : legalWord w = true := by
  obtain ⟨r, hr, hvm⟩ := List.mem_map.mp hrow
  obtain ⟨hvalue, hmask⟩ := Prod.mk.inj hvm
  have hbits : fmt.unusedZero w = true := by
    by_contra hbits
    simp [ofFormat, hbits] at h
  refine List.any_eq_true.mpr ⟨r, hr, beq_iff_eq.mpr ?_⟩
  rw [hmask, hvalue, and_mask_of_unusedZero hbits, ← hop, BitVec.ofNat_toNat, BitVec.setWidth_eq]

/-- A word that decodes to a command is well formed. -/
theorem legalWord_of_decode (h : decode w = .command i) : legalWord w = true := by
  unfold decode at h
  split at h
  case h_16 => cases h
  all_goals next hop => exact legalWord_of_ofFormat hop (by decide) h

end Rows

end Sys2Proof
end

section
/-! An illegal word and the fault latch at the command port (`60_exceptions.md` R181, R186). -/

namespace Sys2Proof.Machine

/-! ### The command port by the latch -/

section Latch

variable {w : Word} {s : State} {i : Instr} {why : Illegal} {rest : List HostAction}

theorem illegal_of_legalWord_eq_false (h : legalWord w = false) : ∃ why, decode w = .illegal why := by
  obtain ⟨i, hi⟩ | hill := command_or_illegal (decode w)
  · exact absurd (legalWord_of_decode hi) (Bool.eq_false_iff.mp h)
  · exact hill

theorem acknowledges_eq_false (hclrf : w ≠ 0x02000000) (hrst : w ≠ 0x03000000) : acknowledges w = false :=
  Bool.or_eq_false_iff.mpr ⟨beq_eq_false_iff_ne.mpr hclrf, beq_eq_false_iff_ne.mpr hrst⟩

theorem hostCmd_of_illegal (hF : s.gfu.statusF = false) (hwhy : decode w = .illegal why) :
    hostCmd w s = .next { s with gfu := s.gfu.enterFault w .illegalCommand 0 } := by
  simp [hostCmd, hostCmdBy, hF, hwhy]

/-- A latched unit drops a word that does not acknowledge the fault, before decoding it. -/
theorem hostCmd_of_dropped (hF : s.gfu.statusF = true) (hack : acknowledges w = false) : hostCmd w s = .next s := by
  simp [hostCmd, hostCmdBy, hF, hack]

/-- An acknowledging word passes the latch. -/
theorem hostCmd_of_acknowledges (hack : acknowledges w = true) (hi : decode w = .command i) :
    hostCmd w s = exec i s := by
  simp [hostCmd, hostCmdBy, hack, hi]

theorem step_cmd (h : s.pending = .cmd w :: rest) : step s = hostCmd w { s with pending := rest } := step_cons h

end Latch

/-! ### The obligations -/

/-- Settles O41: a word that matches no row is no command, so the port takes it as an illegal word. -/
theorem illegalWordRaisesIllegalCommand : Obligations.IllegalWordRaisesIllegalCommand := by
  intro s w rest hp hw hF
  obtain ⟨why, hwhy⟩ := illegal_of_legalWord_eq_false hw
  exact ⟨_, (step_cmd hp).trans (hostCmd_of_illegal hF hwhy), latchesFault_enterFault _ w .illegalCommand 0⟩

/-- Settles O42: the port tests the whole word before decoding, and the two words it lets through decode to CLRF and
RST. -/
theorem latchedUnitDropsAllButClrfAndRst : Obligations.LatchedUnitDropsAllButClrfAndRst := by
  intro s w rest hp hF
  rw [step_cmd hp]
  refine ⟨fun hclrf hrst => hostCmd_of_dropped hF (acknowledges_eq_false hclrf hrst), ?clrf, ?rst⟩
  case clrf =>
    rintro rfl
    exact hostCmd_of_acknowledges (by decide) (by decide)
  case rst =>
    rintro rfl
    exact hostCmd_of_acknowledges (by decide) (by decide)

end Sys2Proof.Machine
end

section
/-! The encoding (`30_encoding.md` R71 to R81): the decoder and the encoder are inverse to each other, and the decoder is
the opcode map. -/

namespace Sys2Proof

/-! ### Decoder and encoder are inverse -/

section Inverse

variable {w : Word} {fmt : Format} {i j : Instr}

theorem ofFormat_of_unusedZero (h : fmt.unusedZero w = true) : ofFormat fmt w i = .command i := if_pos h

theorem ofFormat_eq_command_iff : ofFormat fmt w j = .command i ↔ fmt.unusedZero w = true ∧ j = i := by
  cases h : fmt.unusedZero w <;> simp [ofFormat, h]

/-- Each command's word has its row's opcode, and zeros where its format wants them, so the decoder reads the operands
back. -/
theorem decode_encode (i : Instr) : decode (encode i) = .command i := by
  cases i <;> simp [encode, decode, ofFormat, Format.unusedZero]

/-- In each arm of the decoder the command's operands are the word's fields and the other fields are zero, so the command
packs the word again (PSB in format XI). -/
theorem encode_of_decode (h : decode w = .command i) : encode i = w := by
  unfold decode at h
  split at h
  case h_16 => cases h
  all_goals
    next hop =>
    obtain ⟨hz, rfl⟩ := ofFormat_eq_command_iff.mp h
    have hw := packWord_fields w (zField_of_unusedZero hz)
    have hwXI := packWordXI_fields w (zField_of_unusedZero hz)
    replace hop := congrArg (BitVec.ofNat 8) hop
    rw [BitVec.ofNat_toNat, BitVec.setWidth_eq] at hop
    simp only [Format.unusedZero, Bool.and_eq_true, beq_iff_eq] at hz
    simp_all [encode]

end Inverse

/-! ### The opcode map -/

section OpcodeMap

variable {w : Word} {r r' : OpcodeRow}

theorem extractLsb'_and_of_allOnes {m : Word} {p n : Nat} (h : m.extractLsb' p n = BitVec.allOnes n) (w : Word) :
    (w &&& m).extractLsb' p n = w.extractLsb' p n := by
  rw [BitVec.extractLsb'_and, h, BitVec.and_allOnes]

/-- Masking keeps the opcode. -/
theorem opField_and_mask (w : Word) (fmt : Format) : opField (w &&& fmt.mask) = opField w := by
  cases fmt <;> exact extractLsb'_and_of_allOnes (by decide) w

/-- Masking keeps the fields that must be zero. -/
theorem unusedZero_and_mask (w : Word) (fmt : Format) : fmt.unusedZero (w &&& fmt.mask) = fmt.unusedZero w := by
  cases fmt <;> simp (disch := decide) only [Format.unusedZero, dField, aField, bField, zField, immField,
    extractLsb'_and_of_allOnes]

/-- The format of each row of the opcode map (`30_encoding.md` R75). -/
def formatOf : String → Format
  | "NOP" | "CLRF" | "RST" => .fN
  | "SCLR" => .fR1
  | "EINV" | "SLC" => .fR2
  | "EADD" | "EMUL" | "PADD" | "PSCL" => .fR3
  | "ELI" | "PCLR" | "SCOMB" => .fI
  | "SLD" => .fRI
  | _ => .fXI

theorem mask_eq_of_mem : ∀ r ∈ opcodeTable, r.mask = (formatOf r.mnemonic).mask := by decide

theorem unusedZero_value_of_mem : ∀ r ∈ opcodeTable, (formatOf r.mnemonic).unusedZero r.value = true := by decide

theorem eq_of_opField_value_eq :
    ∀ r ∈ opcodeTable, ∀ r' ∈ opcodeTable, opField r.value = opField r'.value → r = r' := by decide

/-- A word that matches a row has its opcode. -/
theorem opField_of_matchesWord (hr : r ∈ opcodeTable) (h : r.matchesWord w = true) : opField w = opField r.value := by
  rw [← opField_and_mask w (formatOf r.mnemonic), ← mask_eq_of_mem r hr, beq_iff_eq.mp h]

/-- A word that matches a row has zeros where the row's format wants them. -/
theorem unusedZero_of_matchesWord (hr : r ∈ opcodeTable) (h : r.matchesWord w = true) :
    (formatOf r.mnemonic).unusedZero w = true := by
  rw [← unusedZero_and_mask w, ← mask_eq_of_mem r hr, beq_iff_eq.mp h, unusedZero_value_of_mem r hr]

/-- A word that matches a row decodes to a command of that row. -/
theorem decode_of_matchesWord (hr : r ∈ opcodeTable) (h : r.matchesWord w = true) :
    ∃ i, decode w = .command i ∧ mnemonicOf i = r.mnemonic := by
  have hop := opField_of_matchesWord hr h
  have hz := unusedZero_of_matchesWord hr h
  fin_cases hr <;> rw [decode, hop] <;> exact ⟨_, ofFormat_of_unusedZero hz, rfl⟩

theorem legalWord_eq_true_iff : legalWord w = true ↔ ∃ i, decode w = .command i := by
  refine ⟨fun h => ?_, fun ⟨i, hi⟩ => legalWord_of_decode hi⟩
  obtain ⟨r, hr, hm⟩ := List.any_eq_true.mp h
  obtain ⟨i, hi, -⟩ := decode_of_matchesWord hr hm
  exact ⟨i, hi⟩

end OpcodeMap

/-! ### The obligations -/

/-- Settles O1: command by command, the decoder reads back the fields the encoder packed. -/
theorem decodeEncodeGivesBackEveryCommand : Obligations.DecodeEncodeGivesBackEveryCommand := decode_encode

/-- Settles O2: arm by arm, the decoder's command packs the word's own fields. -/
theorem encodeDecodeGivesBackEveryWord : Obligations.EncodeDecodeGivesBackEveryWord := fun _ _ => encode_of_decode

/-- Settles O3: packing by concatenation is the formula with shifts, for the fields of each row. -/
theorem encodingIsTheShiftFormula : Obligations.EncodingIsTheShiftFormula := by
  refine ⟨⟨packWord_eq_fieldsWord _ 0 0 0 0, packWord_eq_fieldsWord _ 0 0 0 0, packWord_eq_fieldsWord _ 0 0 0 0⟩,
    ?eli, ?eadd, ?emul, ?einv, ?pclr, ?psb, ?padd, ?pscl, ?sld, ?sclr, ?slc, ?scomb, by decide, by decide, by decide⟩
  case eli | pclr | scomb => exact fun d imm => packWord_eq_fieldsWord _ d 0 0 imm
  case eadd | emul | padd | pscl => exact fun d a b => packWord_eq_fieldsWord _ d a b 0
  case einv | slc => exact fun d a => packWord_eq_fieldsWord _ d a 0 0
  case sclr => exact fun d => packWord_eq_fieldsWord _ d 0 0 0
  case sld => exact fun d a imm => packWord_eq_fieldsWord _ d a 0 imm
  case psb => exact fun d m imm => packWordXI_eq_fieldsWordXI _ d m imm

/-- Settles O4: a word has the opcode of each row it matches, and no two rows share an opcode. -/
theorem decoderIsTheOpcodeMap : Obligations.DecoderIsTheOpcodeMap := by
  refine ⟨fun w r hr => decode_of_matchesWord hr, fun w r r' hr hr' hm hm' => ?_,
    fun w => Machine.illegal_of_legalWord_eq_false⟩
  exact eq_of_opField_value_eq r hr r' hr' ((opField_of_matchesWord hr hm).symm.trans (opField_of_matchesWord hr' hm'))

/-- Settles O6: the decoder evaluated on the words. -/
theorem sampleWordsDecodeAsWritten : Obligations.SampleWordsDecodeAsWritten := by
  unfold Obligations.SampleWordsDecodeAsWritten
  decide

end Sys2Proof
end

section
/-! One step (`20_memory.md` R50, R60, R62, R65; `60_exceptions.md` R185 to R189): what it does with the oldest action, and
how the fault latch is entered and left. -/

namespace Sys2Proof.Machine

variable {w : Word} {i : Instr} {s t : State} {a : HostAction} {rest : List HostAction}

/-! ### The unit is a function of the unit -/

/-- What a command makes of the unit depends on the unit alone; the host's side stays. -/
theorem exec_gfu (i : Instr) (g : Gfu) : ∃ g', ∀ s : State, s.gfu = g → exec i s = .next { s with gfu := g' } := by
  obtain ⟨g', hw, -⟩ | ⟨cause, info, hr, -⟩ := exec_cases i { gfu := g, pending := [], replies := [] }
  · exact ⟨g', fun s hs => Wrote.exec_eq (hs ▸ hw)⟩
  · exact ⟨g.enterFault (encode i) cause info, fun s hs => hs ▸ Raises.exec_eq (hs ▸ hr)⟩

theorem hostCmd_of_unlatched (hF : s.gfu.statusF = false) (hi : decode w = .command i) : hostCmd w s = exec i s := by
  simp [hostCmd, hostCmdBy, hF, hi]

/-- What a word makes of the unit depends on the unit alone; the host's side stays. -/
theorem hostCmd_gfu (w : Word) (g : Gfu) :
    ∃ g', ∀ s : State, s.gfu = g → hostCmd w s = .next { s with gfu := g' } := by
  by_cases hdrop : (g.statusF && !acknowledges w) = true
  · exact ⟨g, by rintro s rfl; exact if_pos hdrop⟩
  · obtain ⟨i, hi⟩ | ⟨why, hwhy⟩ := command_or_illegal (decode w)
    · obtain ⟨g', hg'⟩ := exec_gfu i g
      refine ⟨g', fun s hs => ?_⟩
      simp [hostCmd, hostCmdBy, hs, hdrop, hi, hg']
    · refine ⟨g.enterFault w .illegalCommand 0, fun s hs => ?_⟩
      simp [hostCmd, hostCmdBy, hs, hdrop, hwhy]

/-! ### The word an action delivers -/

/-- The command word that an action delivers to the unit: that of `HostCmd`, or of the write at the port (`20_memory.md`
R51). -/
def commandOf : HostAction → Option Word
  | .cmd w => some w
  | .read _ _ => none
  | .write addr data => commandOfWrite addr data

theorem performBy_of_commandOf (h : commandOf a = some w) (s : State) : performBy exec a s = hostCmd w s := by
  cases a with
  | cmd v => cases h; rfl
  | read addr n => cases h
  | write addr data => exact performBy_write_of_some h

theorem performBy_of_commandOf_none (h : commandOf a = none) (s : State) :
    ∃ r, performBy exec a s = .next { s with replies := r } := by
  cases a with
  | cmd v => cases h
  | read addr n => exact ⟨_, rfl⟩
  | write addr data => exact ⟨_, performBy_write_of_none h⟩

theorem commandOf_eq_some (h : commandOf a = some w) :
    a = .cmd w ∨ ∃ data, a = .write 0xFFC data ∧ data.length = 4 := by
  cases a with
  | cmd v => cases h; exact .inl rfl
  | read addr n => cases h
  | write addr data =>
    by_cases hport : addr = 0xFFC ∧ data.length = 4
    · exact .inr ⟨data, by rw [hport.1], hport.2⟩
    · exact nomatch (commandOfWrite_eq_none (not_and_or.mp hport)).symm.trans h

/-! ### What a step can do -/

theorem step_nil (h : s.pending = []) : step s = .next s := by
  rw [step, takeActionBy, h]

/-- What an action makes of the unit depends on the unit alone. -/
theorem performBy_gfu (a : HostAction) (g : Gfu) :
    ∃ g', ∀ s : State, s.gfu = g → ∃ r, performBy exec a s = .next { s with gfu := g', replies := r } := by
  cases h : commandOf a with
  | none =>
    refine ⟨g, ?_⟩
    rintro s rfl
    exact performBy_of_commandOf_none h s
  | some w =>
    obtain ⟨g', hg'⟩ := hostCmd_gfu w g
    exact ⟨g', fun s hs => ⟨s.replies, (performBy_of_commandOf h s).trans (hg' s hs)⟩⟩

/-- A step leaves the unit alone, or the word its action delivers has taken effect. -/
theorem step_next_cases (h : step s = .next t) :
    t.gfu = s.gfu ∨
      ∃ a rest w, s.pending = a :: rest ∧ commandOf a = some w ∧ hostCmd w { s with pending := rest } = .next t := by
  cases hp : s.pending with
  | nil => exact .inl (by rw [step_nil hp] at h; cases h; rfl)
  | cons a rest =>
    rw [step_cons hp] at h
    cases ha : commandOf a with
    | none =>
      obtain ⟨r, hr⟩ := performBy_of_commandOf_none ha { s with pending := rest }
      exact .inl (by rw [hr] at h; cases h; rfl)
    | some w => exact .inr ⟨a, rest, w, rfl, ha, (performBy_of_commandOf ha _).symm.trans h⟩

/-- What every word keeps of the unit every step keeps. -/
theorem step_gfu_induction {P : Gfu → Prop} (hs : P s.gfu)
    (hcmd : ∀ (w : Word) (u : State), u.gfu = s.gfu → hostCmd w u = .next t → P t.gfu) (h : step s = .next t) :
    P t.gfu := by
  obtain hsame | ⟨a, rest, w, -, -, hw⟩ := step_next_cases h
  · rwa [hsame]
  · exact hcmd w { s with pending := rest } rfl hw

/-! ### The latch -/

/-- A latched unit drops a word, or returns from the fault by CLRF or by RST (`60_exceptions.md` R186, R188). -/
theorem hostCmd_next_of_latched (hF : s.gfu.statusF = true) (h : hostCmd w s = .next t) :
    t = s ∨ t = { s with gfu := s.gfu.clearFault } ∨ t = { s with gfu := Gfu.reset } := by
  cases hack : acknowledges w with
  | false => exact .inl (Host.Outcome.next.inj (h.symm.trans (hostCmd_of_dropped hF hack)))
  | true =>
    refine .inr ?_
    obtain hw | hw : w = 0x02000000 ∨ w = 0x03000000 := by simpa [acknowledges] using hack
    · have hclrf : decode w = .command .clrf := hw ▸ by decide
      exact .inl (Host.Outcome.next.inj (h.symm.trans (hostCmd_of_acknowledges hack hclrf)))
    · have hrst : decode w = .command .rst := hw ▸ by decide
      exact .inr (Host.Outcome.next.inj (h.symm.trans (hostCmd_of_acknowledges hack hrst)))

/-- The faults of the commands (`60_exceptions.md` R182, R183). -/
theorem Raises.cause_cases {fieldPoly : BitVec 9} {g : Gfu} {cause : FaultCause} {info : Byte}
    (h : Raises fieldPoly g i cause info) :
    (cause = .illegalOperand ∧ info = 0 ∧ mnemonicOf i ∈ ["PCLR", "PSB", "SLD", "SLC", "SCOMB"]) ∨
      (cause = .divisionByZero ∧ info.toNat < 16 ∧ mnemonicOf i ∈ ["EINV", "SLC", "SCOMB"]) := by
  cases h with
  | pclr | psb | sld | slcEmpty | scomb => exact .inl ⟨rfl, rfl, by simp [mnemonicOf]⟩
  | einv d k | slcZero d k | scombZero d imm k =>
    exact .inr ⟨rfl, infoOf_toNat k ▸ k.isLt, by simp [mnemonicOf]⟩

/-- A word that latches a fault: an illegal one, or a command with a fault to raise. -/
theorem hostCmd_latches_cases (hF : s.gfu.statusF = false) (h : hostCmd w s = .next t) (ht : t.gfu.statusF = true) :
    (∃ why, decode w = .illegal why ∧ t = { s with gfu := s.gfu.enterFault w .illegalCommand 0 }) ∨
    (∃ i cause info, decode w = .command i ∧ Raises Config.fieldPoly s.gfu i cause info ∧
      t = { s with gfu := s.gfu.enterFault w cause info }) := by
  obtain ⟨i, g, -, hw, he⟩ | ⟨i, cause, info, hi, hr, he⟩ | ⟨why, hwhy, he⟩ := hostCmd_cases_of_unlatched (w := w) hF
  all_goals obtain rfl := Host.Outcome.next.inj (h.symm.trans he)
  case inl => exact absurd (ht.symm.trans (hw.statusF_eq_false hF)) (by decide)
  case inr.inl => exact .inr ⟨i, cause, info, hi, hr, by rw [encode_of_decode hi]⟩
  case inr.inr => exact .inl ⟨why, hwhy, rfl⟩

/-! ### The obligations -/

/-- Settles O38: only an action that delivers a word can change the unit, and a word leaves the host's side. -/
theorem onlyCommandsChangeTheUnit : Obligations.OnlyCommandsChangeTheUnit := by
  intro s t h hne
  obtain hsame | ⟨a, rest, w, hp, ha, hw⟩ := step_next_cases h
  · exact absurd hsame hne
  · obtain ⟨g', hg'⟩ := hostCmd_gfu w s.gfu
    obtain rfl := Host.Outcome.next.inj (hw.symm.trans (hg' _ rfl))
    exact ⟨a, rest, hp, rfl, (commandOf_eq_some ha).imp_left fun h => ⟨w, h⟩⟩

/-- Settles O39: what the action makes of the unit does not see the host's side. -/
theorem unitDependsOnItsStateAndTheActionAlone : Obligations.UnitDependsOnItsStateAndTheActionAlone := by
  intro s s' t t' a rest rest' hg hp hp' ht ht'
  obtain ⟨g', hg'⟩ := performBy_gfu a s.gfu
  obtain ⟨r, hr⟩ := hg' { s with pending := rest } rfl
  obtain ⟨r', hr'⟩ := hg' { s' with pending := rest' } hg.symm
  obtain rfl := Host.Outcome.next.inj (((step_cons hp).symm.trans ht).symm.trans hr)
  obtain rfl := Host.Outcome.next.inj (((step_cons hp').symm.trans ht').symm.trans hr')
  rfl

/-- Settles O40: the latch lets the word pass, and the port runs what it decodes to. -/
theorem stepRunsTheDecodedCommand : Obligations.StepRunsTheDecodedCommand := by
  intro s w i rest hp hi hpass
  rw [step_cmd hp]
  obtain hF | hw := hpass
  · exact hostCmd_of_unlatched hF hi
  · exact hostCmd_of_acknowledges (by simpa [acknowledges] using hw) hi

/-- Settles O43: a step with nothing to take. -/
theorem idleStepChangesNothing : Obligations.IdleStepChangesNothing := fun _ => step_nil

/-- Settles O44: with nothing to take or with an action to perform, a next state is answered. -/
theorem everyStepAnswersANextState : Obligations.EveryStepAnswersANextState := by
  intro s
  cases hp : s.pending with
  | nil => exact ⟨s, step_nil hp⟩
  | cons a rest =>
    obtain ⟨g', hg'⟩ := performBy_gfu a s.gfu
    obtain ⟨r, hr⟩ := hg' { s with pending := rest } rfl
    exact ⟨_, (step_cons hp).trans hr⟩

/-- Settles O45: a fault entry is that of an illegal word, or of the word's own command with one of its causes. -/
theorem faultEntryIsPrecise : Obligations.FaultEntryIsPrecise := by
  intro w s t hF h ht
  obtain ⟨why, hwhy, rfl⟩ | ⟨i, cause, info, hi, hr, rfl⟩ := hostCmd_latches_cases hF h ht
  · have hw : legalWord w = false := by
      rw [Bool.eq_false_iff, Ne, legalWord_eq_true_iff, hwhy]
      exact fun ⟨_, hi⟩ => nomatch hi
    exact .inl ⟨hw, latchesFault_enterFault s w .illegalCommand 0⟩
  · refine .inr ⟨i, hi, ?_⟩
    obtain ⟨rfl, rfl, hm⟩ | ⟨rfl, hinfo, hm⟩ := hr.cause_cases
    · exact .inl ⟨latchesFault_enterFault s w .illegalOperand 0, hm⟩
    · exact .inr ⟨info, hinfo, latchesFault_enterFault s w .divisionByZero info, hm⟩

/-- Settles O46: the word a latched unit is given is dropped or ends the fault. -/
theorem faultsDoNotNest : Obligations.FaultsDoNotNest := by
  intro s t hF h
  obtain hsame | ⟨a, rest, w, -, -, hw⟩ := step_next_cases h
  · exact .inl hsame
  · obtain rfl | rfl | rfl := hostCmd_next_of_latched (s := { s with pending := rest }) hF hw
    · exact .inl rfl
    · exact .inr ⟨rfl, rfl, rfl, rfl⟩
    · exact .inr ⟨rfl, rfl, rfl, rfl⟩

end Sys2Proof.Machine
end

section
/-! The invariant of the unit's state (`10_state.md` R26, R29, R31, R34 to R36), and that a latched fault stays explained by
the state (`60_exceptions.md` R185, R186). -/

namespace Sys2Proof.Machine

variable {fieldPoly : BitVec 9} {g g' : Gfu} {i : Instr} {w : Word} {cause : FaultCause} {info : Byte} {s t : State}

/-! ### What the writes keep -/

theorem Poly.ok_setCoeff {q : Poly} {m : Nat} (b : Byte) (h : q.Ok) (hm : m < q.len.toNat) : (q.setCoeff m b).Ok := by
  rw [Poly.ok_iff] at h ⊢
  obtain ⟨hlen, hpad⟩ := h
  refine ⟨by rwa [Poly.len_setCoeff], fun n hn hle => ?_⟩
  rw [Poly.len_setCoeff] at hle
  rw [Poly.coeff_setCoeff, if_neg (by omega), hpad n hn hle]

theorem Poly.ok_add {qa qb : Poly} (ha : qa.Ok) (hb : qb.Ok) : (qa.add qb).Ok := by
  obtain ⟨ha, -⟩ := ha
  obtain ⟨hb, -⟩ := hb
  rw [Poly.add]
  exact Poly.ok_build _ (by rw [maxLen_toNat]; omega)

theorem Poly.ok_scale {q : Poly} (k : Byte) (h : q.Ok) : (q.scale k fieldPoly).Ok := Poly.ok_build _ h.1

theorem Poly.ok_addTerm {acc : Poly} (y : Poly) (lc : Byte) (h : acc.Ok) : (acc.addTerm y lc fieldPoly).Ok :=
  Poly.ok_build _ h.1

theorem Gfu.combineLoop_keeps_ok {K todo : List SlotNum} {acc q : Poly} (hacc : acc.Ok)
    (h : g.combineLoop K todo acc fieldPoly = .ok q) : q.Ok := by
  induction todo generalizing acc with
  | nil =>
    cases h
    exact hacc
  | cons i rest ih =>
    cases hlc : g.lagrange K i fieldPoly with
    | none => exact nomatch (Gfu.combineLoop_cons_of_none hlc acc).symm.trans h
    | some lc => exact ih (Poly.ok_addTerm _ lc hacc) ((Gfu.combineLoop_cons_of_some hlc acc).symm.trans h)

theorem Gfu.commonLen_le (hg : g.Ok) (K : List SlotNum) : (g.commonLen K).toNat ≤ 64 := by
  obtain ⟨-, hslots, -⟩ := hg
  cases K with
  | nil => exact Nat.zero_le 64
  | cons k K => exact (hslots k).1.1

theorem Gfu.combine_keeps_ok {K : List SlotNum} {q : Poly} (hg : g.Ok) (h : g.combine K fieldPoly = .ok q) : q.Ok :=
  Gfu.combineLoop_keeps_ok (Poly.ok_zeros (Gfu.commonLen_le hg K)) h

theorem Gfu.clearFault_ok (hg : g.Ok) : g.clearFault.Ok := by
  obtain ⟨hregs, hslots, -⟩ := hg
  exact ⟨hregs, hslots, fun _ => ⟨rfl, rfl, rfl⟩, nofun⟩

theorem Gfu.reset_ok : Gfu.reset.Ok := by
  refine ⟨fun r => ?_, fun k => ?_, fun _ => ⟨rfl, rfl, rfl⟩, nofun⟩
  · rw [Gfu.getP_reset]
    exact Poly.ok_empty
  · rw [Gfu.getS_reset]
    exact Slot.ok_empty

/-- SLD gives a slot a payload that meets the invariant under a legal index (`42_shamir.md` R141). -/
theorem Slot.ok_loaded {x : Byte} {q : Poly} (hx : legalIndex x = true) (hq : q.Ok) (hl : q.len ≠ 0) :
    ({ v := true, x := x, payload := q } : Slot).Ok := by
  obtain ⟨h1, h16⟩ := (legalIndex_iff x).mp hx
  have hpos : q.len.toNat ≠ 0 := fun h0 => hl (BitVec.eq_of_toNat_eq h0)
  exact ⟨hq, fun _ => ⟨h1, h16, Nat.one_le_iff_ne_zero.mpr hpos⟩, nofun⟩

/-- The write of a command that completes keeps the invariant. -/
theorem Wrote.ok (h : Wrote fieldPoly g i g') (hg : g.Ok) : g'.Ok := by
  have hregs := hg.1
  cases h with
  | nothing => exact hg
  | cleared => exact Gfu.clearFault_ok hg
  | reset => exact Gfu.reset_ok
  | eli | eadd | emul | einv | slc => exact Gfu.setE_ok _ _ hg
  | pclr d imm h =>
    have hlen := (legalLength_iff imm).mp h
    exact Gfu.setP_ok d hg (Poly.ok_zeros ((lengthOf_toNat hlen).trans_le hlen))
  | psb d m imm h => exact Gfu.setP_ok d hg (Poly.ok_setCoeff imm (hregs d) ((legalPosition_iff _ m).mp h))
  | padd d a b => exact Gfu.setP_ok d hg (Poly.ok_add (hregs a) (hregs b))
  | pscl d a b => exact Gfu.setP_ok d hg (Poly.ok_scale _ (hregs a))
  | sld d a imm hx hl hv => exact Gfu.setS_ok d hg (Slot.ok_loaded hx (hregs a) hl)
  | sclr d => exact Gfu.setS_ok d hg Slot.ok_empty
  | scomb d imm q ht hn hl hq => exact Gfu.setLZ_ok _ (Gfu.setP_ok d hg (Gfu.combine_keeps_ok hg hq))

/-- The fault entry of an illegal word keeps the invariant. -/
theorem Gfu.enterFault_ok_of_illegal {why : Illegal} (hg : g.Ok) (hwhy : decode w = .illegal why) :
    (g.enterFault w .illegalCommand 0).Ok := by
  obtain ⟨hregs, hslots, -⟩ := hg
  exact ⟨hregs, hslots, nofun, fun _ => .inl ⟨rfl, rfl, by simp [hwhy, Decoded.isCommand]⟩⟩

/-- The fault entry of a command keeps the invariant: `FCMD` takes the command's own word. -/
theorem Raises.ok (h : Raises fieldPoly g i cause info) (hg : g.Ok) : (g.enterFault (encode i) cause info).Ok := by
  obtain ⟨hregs, hslots, -⟩ := hg
  have hcommand : (decode (encode i)).isCommand = true := by rw [decode_encode, Decoded.isCommand]
  refine ⟨hregs, hslots, nofun, fun _ => .inr ?_⟩
  obtain ⟨rfl, rfl, -⟩ | ⟨rfl, hinfo, -⟩ := h.cause_cases
  · exact .inl ⟨rfl, rfl, hcommand⟩
  · exact .inr ⟨rfl, hinfo, hcommand⟩

/-- Every word keeps the invariant, whether the unit is latched or not. -/
theorem hostCmd_keeps_ok (hs : s.gfu.Ok) (h : hostCmd w s = .next t) : t.gfu.Ok := by
  cases hF : s.gfu.statusF with
  | true =>
    obtain rfl | rfl | rfl := hostCmd_next_of_latched hF h
    · exact hs
    · exact Gfu.clearFault_ok hs
    · exact Gfu.reset_ok
  | false =>
    obtain ⟨i, g, -, hw, he⟩ | ⟨i, cause, info, -, hr, he⟩ | ⟨why, hwhy, he⟩ := hostCmd_cases_of_unlatched (w := w) hF
    all_goals obtain rfl := Host.Outcome.next.inj (h.symm.trans he)
    · exact hw.ok hs
    · exact hr.ok hs
    · exact Gfu.enterFault_ok_of_illegal hs hwhy

/-! ### The explanation of a fault -/

/-- `State.FaultExplained` as a predicate of the unit: with the latch cleared, the word in `FCMD` latches this very fault,
whatever the host's side. -/
def Gfu.FaultExplained (g : Gfu) : Prop :=
  g.statusF = true → ∀ s : State, s.gfu = g.clearFault → hostCmd g.fcmd s = .next { s with gfu := g }

theorem State.faultExplained_iff (s : State) : s.FaultExplained ↔ s.gfu.FaultExplained := by
  refine ⟨fun h hF u hu => ?_, fun h hF => h hF { s with gfu := s.gfu.clearFault } rfl⟩
  obtain ⟨g', hg'⟩ := hostCmd_gfu s.gfu.fcmd s.gfu.clearFault
  have hs := Host.Outcome.next.inj ((h hF).symm.trans (hg' { s with gfu := s.gfu.clearFault } rfl))
  have hgfu : s.gfu = g' := congrArg State.gfu hs
  rw [hg' u hu, hgfu]

theorem Gfu.faultExplained_of_unlatched (hF : g.statusF = false) : g.FaultExplained := fun hT =>
  absurd (hT.symm.trans hF) (by decide)

/-- A fault entry is explained: clearing the latch gives back the state in which the word was issued. -/
theorem Gfu.faultExplained_of_hostCmd (hF : s.gfu.statusF = false) (hok : s.gfu.LatchOk) (h : hostCmd w s = .next t) :
    t.gfu.FaultExplained := by
  intro hT u hu
  obtain ⟨g', hg'⟩ := hostCmd_gfu w s.gfu
  obtain rfl := Host.Outcome.next.inj ((hg' s rfl).symm.trans h)
  have ⟨cause, info, hg⟩ : ∃ cause info, g' = s.gfu.enterFault w cause info := by
    obtain ⟨why, -, ht⟩ | ⟨i, cause, info, -, -, ht⟩ := hostCmd_latches_cases hF h hT
    · exact ⟨_, _, congrArg State.gfu ht⟩
    · exact ⟨_, _, congrArg State.gfu ht⟩
  subst hg
  exact hg' u (hu.trans (Gfu.clearFault_of_unlatched hF hok))

/-- Every word keeps a fault explained: a latched unit keeps its fault or returns from it, another takes its first. -/
theorem hostCmd_keeps_faultExplained (hok : s.gfu.Ok) (hs : s.gfu.FaultExplained) (h : hostCmd w s = .next t) :
    t.gfu.FaultExplained := by
  obtain ⟨-, -, hlatch⟩ := hok
  cases hF : s.gfu.statusF with
  | false => exact Gfu.faultExplained_of_hostCmd hF hlatch h
  | true =>
    obtain rfl | rfl | rfl := hostCmd_next_of_latched hF h
    · exact hs
    · exact Gfu.faultExplained_of_unlatched rfl
    · exact Gfu.faultExplained_of_unlatched rfl

/-! ### The obligations -/

/-- Settles O51: the registers and slots after reset are the empty ones. -/
theorem resetMeetsTheInvariant : Obligations.ResetMeetsTheInvariant := Gfu.reset_ok

/-- Settles O52: the unit changes by words alone, and each word keeps the invariant. -/
theorem everyStepKeepsTheInvariant : Obligations.EveryStepKeepsTheInvariant := fun _ _ hs h =>
  step_gfu_induction hs (fun _ _ hu hw => hostCmd_keeps_ok (hu ▸ hs) hw) h

/-- Settles O53: the unit changes by words alone, and each word keeps a fault explained. -/
theorem everyStepKeepsTheFaultExplained : Obligations.EveryStepKeepsTheFaultExplained := by
  intro s t hinv hs h
  rw [State.faultExplained_iff] at hs ⊢
  exact step_gfu_induction hs (fun w u hu hw => hostCmd_keeps_faultExplained (hu ▸ hinv) (hu ▸ hs) hw) h

end Sys2Proof.Machine
end

section
/-! The writers of the registers (`10_state.md` R20, R22), the state after RST (`43_system.md` R172), and reads of the whole
window (`20_memory.md` R52, R53). -/

namespace Sys2Proof.Machine

/-! ### The commands that write a register -/

section Writers

variable {fieldPoly : BitVec 9} {g g' : Gfu} {i : Instr}

/-- The completed commands that change an E register (`10_state.md` R22). -/
theorem Wrote.getE_ne (h : Wrote fieldPoly g i g') {r : EReg} (hr : g'.getE r ≠ g.getE r) :
    i = .rst ∨ (∃ imm, i = .eli r imm) ∨ (∃ a b, i = .eadd r a b) ∨ (∃ a b, i = .emul r a b) ∨
      (∃ a, i = .einv r a) ∨ ∃ a, i = .slc r a := by
  have register_eq {d : EReg} {v : Byte} (hne : (g.setE d v).getE r ≠ g.getE r) : r = d :=
    not_imp_comm.1 (g.getE_setE_ne v) hne
  cases h with
  | reset => exact .inl rfl
  | eli | eadd | emul | einv | slc =>
    obtain rfl := register_eq hr
    simp
  | nothing | cleared | pclr | psb | padd | pscl | sld | sclr | scomb => exact absurd rfl hr

/-- The completed commands that change a P register (`10_state.md` R20). -/
theorem Wrote.getP_ne (h : Wrote fieldPoly g i g') {r : PReg} (hr : g'.getP r ≠ g.getP r) :
    i = .rst ∨ (∃ imm, i = .pclr r imm) ∨ (∃ m imm, i = .psb r m imm) ∨ (∃ a b, i = .padd r a b) ∨
      (∃ a b, i = .pscl r a b) ∨ ∃ imm, i = .scomb r imm := by
  have register_eq {d : PReg} {q : Poly} (hne : (g.setP d q).getP r ≠ g.getP r) : r = d :=
    not_imp_comm.1 (g.getP_setP_ne q) hne
  cases h with
  | reset => exact .inl rfl
  | pclr | psb | padd | pscl | scomb =>
    obtain rfl := register_eq hr
    simp
  | nothing | cleared | eli | eadd | emul | einv | sld | sclr | slc => exact absurd rfl hr

end Writers

/-! ### The read map shows all of the unit's state -/

theorem setWidth_length_inj {l l' : BitVec 7} (h : l.setWidth 8 = l'.setWidth 8) : l = l' := by
  have h7 := congrArg (BitVec.setWidth 7) h
  rwa [BitVec.setWidth_setWidth_of_le _ (by omega), BitVec.setWidth_setWidth_of_le _ (by omega), BitVec.setWidth_eq,
    BitVec.setWidth_eq] at h7

theorem Slot.ext_fields {sl sl' : Slot} (hv : sl.v = sl'.v) (hx : sl.x = sl'.x) (hp : sl.payload = sl'.payload) :
    sl = sl' := by
  cases sl
  cases sl'
  simp_all

section ReadMap

variable {g g' : Gfu} (h : ∀ a : Addr, g.readByte a = g'.readByte a)
include h

theorem Gfu.getE_eq_of_reads (i : EReg) : g.getE i = g'.getE i := by
  have ha : (BitVec.ofNat 12 i.val : Addr).toNat = i.val := toNat_addr (by omega)
  rw [← g.readByte_e i ha, h, g'.readByte_e i ha]

theorem Gfu.getP_eq_of_reads (r : PReg) : g.getP r = g'.getP r := by
  have hlen : (BitVec.ofNat 12 (0x040 + r.val) : Addr).toNat = 0x040 + r.val := toNat_addr (by omega)
  refine Poly.ext_coeff (setWidth_length_inj ?_) fun n hn => ?_
  · rw [← g.readByte_pLen r hlen, h, g'.readByte_pLen r hlen]
  · have ha : (BitVec.ofNat 12 (0x400 + 0x40 * r.val + n) : Addr).toNat = 0x400 + 0x40 * r.val + n :=
      toNat_addr (by omega)
    rw [← g.readByte_pCoeff r hn ha, h, g'.readByte_pCoeff r hn ha]

theorem Gfu.valid_eq_of_reads (k : SlotNum) : (g.getS k).v = (g'.getS k).v := by
  obtain hk | hk := Nat.lt_or_ge k.val 8
  · rw [← g.getLsbD_validByte hk (Nat.zero_add _).symm, ← g.readByte_valid_low, h, g'.readByte_valid_low,
      g'.getLsbD_validByte hk (Nat.zero_add _).symm]
  · have hn : k.val - 8 < 8 := by omega
    have hsum : k.val = 8 + (k.val - 8) := by omega
    rw [← g.getLsbD_validByte hn hsum, ← g.readByte_valid_high, h, g'.readByte_valid_high,
      g'.getLsbD_validByte hn hsum]

theorem Gfu.getS_eq_of_reads (k : SlotNum) : g.getS k = g'.getS k := by
  have hlen : (BitVec.ofNat 12 (0x050 + k.val) : Addr).toNat = 0x050 + k.val := toNat_addr (by omega)
  have hx : (BitVec.ofNat 12 (0x060 + k.val) : Addr).toNat = 0x060 + k.val := toNat_addr (by omega)
  refine Slot.ext_fields (Gfu.valid_eq_of_reads h k) ?_ (Poly.ext_coeff (setWidth_length_inj ?_) fun n hn => ?_)
  · rw [← g.readByte_slotX k hx, h, g'.readByte_slotX k hx]
  · rw [← g.readByte_slotLen k hlen, h, g'.readByte_slotLen k hlen]
  · have ha : (BitVec.ofNat 12 (0x800 + 0x40 * k.val + n) : Addr).toNat = 0x800 + 0x40 * k.val + n :=
      toNat_addr (by omega)
    rw [← g.readByte_slotCoeff k hn ha, h, g'.readByte_slotCoeff k hn ha]

theorem Gfu.statusByte_eq_of_reads : g.statusByte = g'.statusByte := by
  rw [← g.readByte_status, h, g'.readByte_status]

/-- The four bytes of `FCMD` make up the register. -/
theorem Gfu.fcmd_eq_of_reads : g.fcmd = g'.fcmd := by
  refine BitVec.eq_of_getLsbD_eq fun n hn => ?_
  have ha : (BitVec.ofNat 12 (0x014 + n / 8) : Addr).toNat = 0x014 + n / 8 := toNat_addr (by omega)
  have hbyte : g.fcmd.extractLsb' (8 * (n / 8)) 8 = g'.fcmd.extractLsb' (8 * (n / 8)) 8 := by
    rw [← g.readByte_fcmd (by omega) ha, h, g'.readByte_fcmd (by omega) ha]
  have hbit := congrArg (fun b : Byte => b.getLsbD (n % 8)) hbyte
  simpa [Nat.mod_lt, Nat.div_add_mod] using hbit

/-- Two units that read the same everywhere agree in every register, slot and flag. -/
theorem Gfu.eq_of_reads : g = g' := by
  have hF := congrArg (BitVec.getLsbD · 0) (Gfu.statusByte_eq_of_reads h)
  have hLZ := congrArg (BitVec.getLsbD · 1) (Gfu.statusByte_eq_of_reads h)
  simp only [Gfu.getLsbD_statusByte, if_true, one_ne_zero, if_false] at hF hLZ
  exact Gfu.ext_get (Gfu.getE_eq_of_reads h) (Gfu.getP_eq_of_reads h) (Gfu.getS_eq_of_reads h) hF hLZ (h 0x011)
    (h 0x012) (Gfu.fcmd_eq_of_reads h)

end ReadMap

/-! ### Host reads -/

section HostRead

theorem extractLsb'_wordOfBytes (bs : List Byte) {i : Nat} (hi : i < 4) :
    (wordOfBytes bs).extractLsb' (8 * i) 8 = bs.getD i 0 := by
  refine BitVec.eq_of_getLsbD_eq fun n hn => ?_
  simp only [wordOfBytes, BitVec.getLsbD_extractLsb', BitVec.getLsbD_append]
  interval_cases i <;> interval_cases n <;> simp

theorem addr_add_ofNat (addr : Addr) (i : Nat) :
    addr + BitVec.ofNat 12 i = BitVec.ofNat 12 ((addr.toNat + i) % 4096) := by
  refine BitVec.eq_of_toNat_eq ?_
  simp

theorem readWidth_bytes_le (n : ReadWidth) : n.bytes ≤ 4 := by cases n <;> decide

theorem Gfu.getD_readBytes (g : Gfu) (addr : Addr) {n i : Nat} (hi : i < n) :
    (g.readBytes addr n).getD i 0 = g.readByte (BitVec.ofNat 12 ((addr.toNat + i) % 4096)) := by
  rw [← addr_add_ofNat]
  simp [Gfu.readBytes, hi]

theorem Gfu.memRead_lt (g : Gfu) (addr : Addr) (n : ReadWidth) : (g.memRead addr n).toNat < 2 ^ (8 * n.bytes) := by
  refine Nat.lt_pow_two_of_testBit _ fun k hk => ?_
  obtain hk32 | hk32 := Nat.lt_or_ge k 32
  · have hbyte := extractLsb'_wordOfBytes (g.readBytes addr n.bytes) (i := k / 8) (by omega)
    rw [List.getD_eq_default _ _ (by simp [Gfu.readBytes]; omega)] at hbyte
    have hbit := congrArg (BitVec.getLsbD · (k % 8)) hbyte
    simpa [Nat.mod_lt, Nat.div_add_mod, Gfu.memRead, BitVec.testBit_toNat] using hbit
  · exact BitVec.getLsbD_of_ge _ k hk32

end HostRead

/-! ### The obligations -/

/-- Settles O47: a command that completes writes its destination, and a fault writes no register. -/
theorem eRegisterWriters : Obligations.ERegisterWriters := by
  intro i s t r h hr
  obtain ⟨g, hw, rfl⟩ | ⟨cause, info, -, rfl⟩ := exec_next_cases h
  · exact hw.getE_ne hr
  · exact absurd rfl hr

/-- Settles O48: a command that completes writes its destination, and a fault writes no register. -/
theorem pRegisterWriters : Obligations.PRegisterWriters := by
  intro i s t r h hr
  obtain ⟨g, hw, rfl⟩ | ⟨cause, info, -, rfl⟩ := exec_next_cases h
  · exact hw.getP_ne hr
  · exact absurd rfl hr

/-- Settles O32: RST writes the reset state, whose registers and slots are the empty ones. -/
theorem rstZeroesEveryPieceOfState : Obligations.RstZeroesEveryPieceOfState := by
  refine ⟨by decide, fun s => ⟨_, Wrote.reset.exec_eq, Gfu.getE_reset, fun r => ?_, fun k => ?_, rfl, rfl, rfl, rfl, rfl,
    rfl, rfl, rfl⟩⟩
  · rw [Gfu.getP_reset]
    exact ⟨rfl, fun n _ => Poly.coeff_empty n⟩
  · rw [Gfu.getS_reset]
    exact ⟨rfl, rfl, rfl, fun n _ => Poly.coeff_empty n⟩

/-- Settles O33: every branch of the read map shows a piece of the reset state, all zero, or nothing. -/
theorem everyReadAfterResetIsZero : Obligations.EveryReadAfterResetIsZero := by
  intro a
  have hregs : State.reset.gfu = Gfu.reset := rfl
  have hstatus : Gfu.reset.statusByte = 0 := rfl
  have hcause : Gfu.reset.fcause = 0 := rfl
  have hinfo : Gfu.reset.finfo = 0 := rfl
  have hcmd : Gfu.reset.fcmd = 0 := rfl
  have hvalid (base : Nat) : Gfu.reset.validByte base = 0 := by
    refine BitVec.eq_of_getLsbD_eq fun n hn => ?_
    simp [Gfu.validByte, BitVec.getLsbD_ofFnLE, Slot.empty]
  simp [Gfu.readByte, hregs, hvalid, hstatus, hcause, hinfo, hcmd, Slot.empty]

/-- Settles O35: every register, slot and flag stands in the read map. -/
theorem readMapDeterminesTheState : Obligations.ReadMapDeterminesTheState := fun _ _ => Gfu.eq_of_reads

/-- Settles O36: byte by byte, and above the bytes read the value has none. -/
theorem hostReadAnswersLittleEndianAndChangesNothing :
    Obligations.HostReadAnswersLittleEndianAndChangesNothing := by
  refine ⟨fun g addr n => ⟨fun i hi => ?_, g.memRead_lt addr n⟩, fun s addr n rest hp => step_cons hp⟩
  rw [Gfu.memRead, extractLsb'_wordOfBytes _ (hi.trans_le (readWidth_bytes_le n)), Gfu.getD_readBytes g addr hi]

end Sys2Proof.Machine
end

section
/-! The field GF(256) of the default polynomial (`40_field.md` R102, R103, R108; log entry 1): its laws, the generator 0x02
behind the tables, and a Mathlib field that it is. -/

namespace Sys2Proof.Machine

/-! ### The inverse -/

section Inverse

variable {a b : Byte}

theorem gfMul_gfPow_254 (h : a ≠ 0) : gfMul a (gfPow a 254) = 1 := by
  rw [gfMul_comm, ← gfPow_succ, gfPow_255 h]

theorem gfInv_eq_some (h : gfInv a = some b) : a ≠ 0 ∧ b = gfPow a 254 := by
  have ha : a ≠ 0 := fun h0 => nomatch (gfInv_eq_none.mpr h0).symm.trans h
  exact ⟨ha, Option.some.inj (h.symm.trans (gfInv_of_ne _ ha))⟩

/-- A product of 0x01 leaves one choice for the other factor. -/
theorem eq_gfPow_254_of_gfMul_eq_one (h : gfMul a b = 1) : b = gfPow a 254 := by
  have ha : a ≠ 0 := by
    rintro rfl
    exact absurd (h.symm.trans (zero_gfMul _ b)) (by decide)
  calc b = gfMul (gfMul a (gfPow a 254)) b := by rw [gfMul_gfPow_254 ha]; exact (one_gfMul _ b).symm
    _ = gfMul (gfMul a b) (gfPow a 254) := gfMul_right_comm _ a _ b
    _ = gfPow a 254 := by rw [h]; exact one_gfMul _ _

theorem gfPow_ne_zero (h : a ≠ 0) (n : Nat) : gfPow a n ≠ 0 := by
  induction n with
  | zero => exact (by decide : (1 : Byte) ≠ 0)
  | succ n ih => exact gfMul_eq_zero_iff.not.mpr (not_or.mpr ⟨ih, h⟩)

end Inverse

/-! ### A Mathlib field -/

/-- The bytes with the unit's arithmetic, as a field. -/
abbrev gfField : Field Byte :=
  @Field.ofMinimalAxioms Byte ⟨gfAdd⟩ ⟨fun a b => gfMul a b⟩ ⟨id⟩ ⟨fun a => gfPow a 254⟩ ⟨0⟩ ⟨1⟩
    BitVec.xor_assoc (fun _ => BitVec.zero_xor) (fun _ => BitVec.xor_self) (gfMul_assoc _) (gfMul_comm _) (one_gfMul _)
    (fun _ => gfMul_gfPow_254) (by decide) (gfMul_xor_right _) ⟨0, 1, by decide⟩

/-- A field whose arithmetic is the unit's, along a map of the bytes. -/
structure ModelsField {F : Type} [Field F] (φ : Byte → F) : Prop where
  injective : Function.Injective φ
  map_zero : φ 0 = 0
  map_one : φ 1 = 1
  map_xor : ∀ a b, φ (a ^^^ b) = φ a + φ b
  map_gfMul : ∀ a b, φ (gfMul a b) = φ a * φ b

/-- The unit computes in a field, so what holds in every field holds of it. -/
theorem exists_modelsField : ∃ (F : Type) (_ : Field F) (φ : Byte → F), ModelsField φ :=
  ⟨Byte, gfField, id, @ModelsField.mk Byte gfField id Function.injective_id rfl rfl (fun _ _ => rfl) fun _ _ => rfl⟩

section Field

variable {F : Type} [Field F] {φ : Byte → F} (hφ : ModelsField φ)
include hφ

theorem ModelsField.map_gfPow (a : Byte) (n : Nat) : φ (gfPow a n) = φ a ^ n := by
  induction n with
  | zero => rw [pow_zero]; exact hφ.map_one
  | succ n ih => rw [gfPow_succ, hφ.map_gfMul, ih, pow_succ]

/-- 0x02 generates the field's nonzero elements: of 255 and its proper divisors only 255 gives the power 0x01. -/
theorem ModelsField.orderOf_two : orderOf (φ 2) = 255 := by
  refine orderOf_eq_of_pow_and_pow_div_prime (by decide) ?_ fun p hp hdvd => ?_
  · rw [← hφ.map_gfPow, gfPow_255 (by decide), hφ.map_one]
  · have hp : p = 3 ∨ p = 5 ∨ p = 17 := by
      have hmem : p ∈ Nat.primeFactorsList 255 := (Nat.mem_primeFactorsList (by decide)).mpr ⟨hp, hdvd⟩
      simpa using hmem
    rw [← hφ.map_gfPow, ← hφ.map_one, hφ.injective.ne_iff]
    obtain rfl | rfl | rfl := hp <;> decide +kernel

end Field

/-! ### The tables -/

theorem gfPow_two_injOn : Set.InjOn (fun n => gfPow 2 n) (Set.Iio 255) := by
  obtain ⟨F, _, φ, hφ⟩ := exists_modelsField
  intro m hm n hn h
  rw [← hφ.orderOf_two] at hm hn
  refine pow_injOn_Iio_orderOf hm hn ?_
  simpa [hφ.map_gfPow] using congrArg φ h

/-- The 255 powers of 0x02 are different and not 0x00, so they are all the nonzero elements. -/
theorem exists_gfPow_two_eq {a : Byte} (h : a ≠ 0) : ∃ n < 255, gfPow 2 n = a := by
  have nonzero_iff (b : Byte) : b.toNat ∈ Finset.Ico 1 256 ↔ b ≠ 0 := by
    rw [Finset.mem_Ico, Nat.one_le_iff_ne_zero, Ne, Ne, ← BitVec.toNat_inj]
    exact and_iff_left b.isLt
  have hmaps : Set.MapsTo (fun n => (gfPow 2 n).toNat) (Finset.range 255) (Finset.Ico 1 256) := fun n _ =>
    (nonzero_iff _).mpr (gfPow_ne_zero (by decide) n)
  have hinj : Set.InjOn (fun n => (gfPow 2 n).toNat) (Finset.range 255) := fun m hm n hn hmn =>
    gfPow_two_injOn (Finset.mem_range.mp hm) (Finset.mem_range.mp hn) (BitVec.eq_of_toNat_eq hmn)
  obtain ⟨n, hn, ha⟩ := Finset.surjOn_of_injOn_of_card_le _ hmaps hinj (by simp) ((nonzero_iff a).mpr h)
  exact ⟨n, Finset.mem_range.mp hn, BitVec.eq_of_toNat_eq ha⟩

@[simp] theorem length_expTable : expTable.length = 255 := by simp [expTable]

theorem getElem_expTable {n : Nat} (h : n < expTable.length) : expTable[n] = gfPow 2 n := by simp [expTable]

theorem getD_expTable {n : Nat} (h : n < 255) : expTable.getD n 0 = gfPow 2 n := by
  rw [← length_expTable] at h
  rw [List.getD_eq_getElem _ _ h, getElem_expTable h]

/-- The logarithm of a nonzero element is the exponent of 0x02 that gives it (`40_field.md` R102). -/
theorem gfPow_two_logOf {a : Byte} (h : a ≠ 0) : gfPow 2 (logOf a) = a := by
  obtain ⟨n, hn, rfl⟩ := exists_gfPow_two_eq h
  have hmem : gfPow 2 n ∈ expTable := List.mem_map.mpr ⟨n, List.mem_range.mpr hn, rfl⟩
  exact (getElem_expTable (List.idxOf_lt_length_of_mem hmem)).symm.trans (List.getElem_idxOf _)

/-- Exponents count modulo 255. -/
theorem gfPow_mod_255 {a : Byte} (h : a ≠ 0) (n : Nat) : gfPow a (n % 255) = gfPow a n :=
  calc gfPow a (n % 255) = gfMul (gfPow a (255 * (n / 255))) (gfPow a (n % 255)) := by
        rw [gfPow_mul, gfPow_255 h]
        exact ((congrArg (gfMul · _) (one_gfPow _ _)).trans (one_gfMul _ _)).symm
    _ = gfPow a n := by rw [← gfPow_add, Nat.div_add_mod]

/-! ### The obligations -/

/-- Settles O9: the product of two powers of 0x02 is the power of the sum of the exponents. -/
theorem tableMultiplicationAgrees : Obligations.TableMultiplicationAgrees := by
  intro a b
  unfold gfMulByTables
  split
  · next h => exact gfMul_eq_zero_iff.mpr h
  · next h =>
    obtain ⟨ha, hb⟩ := not_or.mp h
    calc gfMul a b = gfMul (gfPow 2 (logOf a)) (gfPow 2 (logOf b)) := by rw [gfPow_two_logOf ha, gfPow_two_logOf hb]
      _ = gfPow 2 (logOf a + logOf b) := (gfPow_add _ _ _ _).symm
      _ = expTable.getD ((logOf a + logOf b) % 255) 0 := by
        rw [getD_expTable (Nat.mod_lt _ (by decide)), gfPow_mod_255 (by decide)]

/-- Settles O10: the power 254 is one factor short of the power 255, which is 0x01. -/
theorem inverseIsTheOneElementWithProductOne : Obligations.InverseIsTheOneElementWithProductOne :=
  ⟨gfInv_zero _, fun _ ha => ⟨_, gfInv_of_ne _ ha, rfl, gfMul_gfPow_254 ha, fun _ => eq_gfPow_254_of_gfMul_eq_one⟩⟩

/-- Settles O11: addition is exclusive or, and the product's laws stand above. -/
theorem fieldLaws : Obligations.FieldLaws := by
  refine ⟨fun a b => ⟨BitVec.xor_comm a b, gfMul_comm _ a b⟩, fun a b c => ⟨BitVec.xor_assoc a b c, gfMul_assoc _ a b c⟩,
    gfMul_xor_right _, fun a => ⟨BitVec.xor_zero, gfMul_one _ a, gfMul_zero _ a, BitVec.xor_self⟩,
    fun a b => gfMul_eq_zero_iff.mp, fun a b h => ⟨?_, gfInv_gfInv h⟩⟩
  obtain ⟨ha, rfl⟩ := gfInv_eq_some h
  exact gfMul_gfPow_254 ha

end Sys2Proof.Machine
end

section
/-! The combiner over the shares in the slots (`42_shamir.md` R140, R153, R155, R156): Lagrange coefficients and sums as
functions of the (index, payload) pairs, whatever slots hold them; for the default polynomial (log entry 1). -/

namespace Sys2Proof.Machine

/-! ### A Lagrange coefficient by index -/

/-- The Lagrange coefficient of the index `x` among the indices `X`, no slot named (`42_shamir.md` R150). -/
def lagrangeOf (X : List Byte) (x : Byte) : Option Byte :=
  (gfInv (gfProd ((X.erase x).map (· ^^^ x)))).map fun b => gfMul (gfProd X) b

theorem lagrangeOf_perm {X X' : List Byte} (h : X.Perm X') (x : Byte) : lagrangeOf X x = lagrangeOf X' x := by
  rw [lagrangeOf, lagrangeOf, gfProd_perm _ h, gfProd_perm _ ((h.erase x).map _)]

/-- The indices in the valid slots, in slot order. -/
def Gfu.indices (g : Gfu) : List Byte := g.shares.map Prod.fst

theorem Gfu.indices_eq (g : Gfu) : g.indices = g.workingSet.map fun k => (g.getS k).x := by
  simp [Gfu.indices, Gfu.shares]

theorem Gfu.workingSet_nodup (g : Gfu) : g.workingSet.Nodup :=
  g.workingSet_pairwise.imp fun h => h.ne

/-- The indices of the other slots of K are the indices of K with the slot's own taken out once. -/
theorem Gfu.indices_erase_perm (g : Gfu) {i : SlotNum} (hi : i ∈ g.workingSet) :
    ((g.workingSet.filter (· ≠ i)).map fun k => (g.getS k).x).Perm (g.indices.erase (g.getS i).x) := by
  have herase : g.workingSet.filter (· ≠ i) = g.workingSet.erase i := by
    rw [g.workingSet_nodup.erase_eq_filter]
    exact List.filter_congr fun k _ => Bool.eq_iff_iff.mpr (by simp)
  have hperm := ((List.perm_cons_erase hi).map fun k => (g.getS k).x).erase (g.getS i).x
  rw [List.map_cons, List.erase_cons_head, ← g.indices_eq] at hperm
  exact herase ▸ hperm.symm

theorem Gfu.lagrange_eq_lagrangeOf (g : Gfu) {i : SlotNum} (hi : i ∈ g.workingSet) :
    g.lagrange g.workingSet i = lagrangeOf g.indices (g.getS i).x := by
  have hD : g.denominator g.workingSet i = gfProd ((g.indices.erase (g.getS i).x).map (· ^^^ (g.getS i).x)) := by
    rw [g.denominator_eq_gfProd, ← gfProd_perm _ ((g.indices_erase_perm hi).map _), List.map_map]
    rfl
  rw [Gfu.lagrange, hD, g.numerator_eq_gfProd, ← g.indices_eq, lagrangeOf]

/-! ### The sum share by share -/

/-- The terms of two shares may be added in either order. -/
theorem Poly.addTerm_right_comm (acc y y' : Poly) (lc lc' : Byte) :
    (acc.addTerm y lc).addTerm y' lc' = (acc.addTerm y' lc').addTerm y lc := by
  refine Poly.ext_coeff (by simp only [Poly.len_addTerm]) fun n _ => ?_
  obtain hn | hn := Nat.lt_or_ge n acc.len.toNat
  · have hterms (z z' : Poly) (k k' : Byte) :
        ((acc.addTerm z k).addTerm z' k').coeff n = acc.coeff n ^^^ gfMul (z.coeff n) k ^^^ gfMul (z'.coeff n) k' := by
      rw [Poly.coeff_addTerm_of_lt _ z' k' _ (by rwa [Poly.len_addTerm]), Poly.coeff_addTerm_of_lt _ z k _ hn]
    rw [hterms, hterms]
    ac_rfl
  · have hpad (z z' : Poly) (k k' : Byte) : ((acc.addTerm z k).addTerm z' k').coeff n = 0 :=
      Poly.coeff_addTerm_of_len_le _ z' k' _ (by rwa [Poly.len_addTerm])
    rw [hpad, hpad]

/-- One share's term added into the sum, if there is a sum so far and the share's index has a coefficient. -/
def addShare (coefficient : Byte → Option Byte) (acc : Option Poly) (p : Byte × Poly) : Option Poly :=
  acc.bind fun q => (coefficient p.1).map fun lc => q.addTerm p.2 lc

theorem addShare_none (coefficient : Byte → Option Byte) (p : Byte × Poly) : addShare coefficient none p = none := rfl

theorem addShare_of_none {coefficient : Byte → Option Byte} {p : Byte × Poly} (h : coefficient p.1 = none)
    (acc : Option Poly) : addShare coefficient acc p = none := by
  cases acc with
  | none => exact addShare_none coefficient p
  | some q => rw [addShare, Option.bind_some, h, Option.map_none]

theorem addShare_of_some {coefficient : Byte → Option Byte} {p : Byte × Poly} {lc : Byte}
    (h : coefficient p.1 = some lc) (q : Poly) : addShare coefficient (some q) p = some (q.addTerm p.2 lc) := by
  rw [addShare, Option.bind_some, h, Option.map_some]

theorem addShare_right_comm (coefficient : Byte → Option Byte) (acc : Option Poly) (p p' : Byte × Poly) :
    addShare coefficient (addShare coefficient acc p) p' = addShare coefficient (addShare coefficient acc p') p := by
  cases acc with
  | none => simp only [addShare_none]
  | some q =>
    cases h : coefficient p.1 with
    | none => rw [addShare_of_none h, addShare_of_none h, addShare_none]
    | some lc =>
      cases h' : coefficient p'.1 with
      | none => rw [addShare_of_none h', addShare_of_none h', addShare_none]
      | some lc' =>
        rw [addShare_of_some h, addShare_of_some h', addShare_of_some h', addShare_of_some h,
          Poly.addTerm_right_comm]

theorem foldl_addShare_none (coefficient : Byte → Option Byte) (l : List (Byte × Poly)) :
    l.foldl (addShare coefficient) none = none := by
  induction l with
  | nil => rfl
  | cons p l ih => exact ih

/-- The combiner's loop adds share after share. -/
theorem Gfu.combineLoop_toOption (g : Gfu) {todo : List SlotNum} (htodo : ∀ i ∈ todo, i ∈ g.workingSet) (acc : Poly) :
    (g.combineLoop g.workingSet todo acc).toOption =
      (todo.map fun k => ((g.getS k).x, (g.getS k).payload)).foldl (addShare (lagrangeOf g.indices)) (some acc) := by
  induction todo generalizing acc with
  | nil => rfl
  | cons i rest ih =>
    obtain ⟨hi, hrest⟩ := List.forall_mem_cons.mp htodo
    rw [List.map_cons, List.foldl_cons]
    have hlc := g.lagrange_eq_lagrangeOf hi
    cases h : g.lagrange g.workingSet i with
    | none =>
      rw [Gfu.combineLoop_cons_of_none h, addShare_of_none (hlc.symm.trans h), foldl_addShare_none]
      rfl
    | some lc => rw [Gfu.combineLoop_cons_of_some h, ih hrest, addShare_of_some (hlc.symm.trans h)]

theorem Gfu.combine_toOption (g : Gfu) :
    (g.combine g.workingSet).toOption =
      g.shares.foldl (addShare (lagrangeOf g.indices)) (some (Poly.zeros (g.commonLen g.workingSet))) :=
  g.combineLoop_toOption (fun _ => id) _

/-! ### Two units with the same shares -/

theorem Gfu.unequalLengths_iff_shares (g : Gfu) :
    g.unequalLengths g.workingSet = true ↔ ∃ p ∈ g.shares, ∃ p' ∈ g.shares, p.2.len ≠ p'.2.len := by
  rw [g.unequalLengths_iff]
  simp [Gfu.shares]

theorem Gfu.len_of_mem_shares {g : Gfu} (hl : g.unequalLengths g.workingSet = false) {p : Byte × Poly}
    (hp : p ∈ g.shares) : p.2.len = g.commonLen g.workingSet := by
  obtain ⟨k, hk, rfl⟩ := List.mem_map.mp hp
  have hne := List.any_eq_false.mp hl k hk
  simpa using hne

section Perm

variable {g g' g₁ : Gfu} (hperm : g.shares.Perm g'.shares)
include hperm

theorem Gfu.indices_perm : g.indices.Perm g'.indices := hperm.map _

theorem Gfu.length_workingSet_perm : g.workingSet.length = g'.workingSet.length := by
  simpa [Gfu.shares] using hperm.length_eq

theorem Gfu.unequalLengths_perm : g.unequalLengths g.workingSet = g'.unequalLengths g'.workingSet := by
  rw [Bool.eq_iff_iff, Gfu.unequalLengths_iff_shares, Gfu.unequalLengths_iff_shares]
  simp only [hperm.mem_iff]

theorem Gfu.commonLen_perm (hl : g'.unequalLengths g'.workingSet = false) :
    g.commonLen g.workingSet = g'.commonLen g'.workingSet := by
  cases hK : g.workingSet with
  | nil =>
    have hK' : g'.workingSet = [] := by
      rw [← List.length_eq_zero_iff, ← Gfu.length_workingSet_perm hperm, hK, List.length_nil]
    rw [hK', Gfu.commonLen, Gfu.commonLen]
  | cons k K =>
    have hk : ((g.getS k).x, (g.getS k).payload) ∈ g.shares := List.mem_map.mpr ⟨k, hK ▸ List.mem_cons_self, rfl⟩
    exact Gfu.len_of_mem_shares hl (hperm.mem_iff.mp hk)

/-- The sum does not depend on the order of the shares. -/
theorem Gfu.combine_perm (hl : g'.unequalLengths g'.workingSet = false) :
    (g.combine g.workingSet).toOption = (g'.combine g'.workingSet).toOption := by
  have hlc : lagrangeOf g.indices = lagrangeOf g'.indices := funext (lagrangeOf_perm (Gfu.indices_perm hperm))
  rw [g.combine_toOption, g'.combine_toOption, Gfu.commonLen_perm hperm hl, hlc]
  exact hperm.foldl_eq' (fun p _ p' _ acc => addShare_right_comm _ acc p p') _

theorem Gfu.lagrange_perm {a a' : SlotNum} (ha : (g.getS a).v = true) (ha' : (g'.getS a').v = true)
    (hx : (g.getS a).x = (g'.getS a').x) : g.lagrange g.workingSet a = g'.lagrange g'.workingSet a' := by
  rw [g.lagrange_eq_lagrangeOf ((g.mem_workingSet a).mpr ha), g'.lagrange_eq_lagrangeOf ((g'.mem_workingSet a').mpr ha'),
    hx, lagrangeOf_perm (Gfu.indices_perm hperm)]

/-- Where SCOMB completes on one unit it completes on the other, with the same result. -/
theorem Wrote.scomb_perm {d : PReg} {imm : Byte} (h : Wrote Config.fieldPoly g (.scomb d imm) g₁) :
    ∃ q, g₁ = (g.setP d q).setLZ (leadingZero q) ∧
      Wrote Config.fieldPoly g' (.scomb d imm) ((g'.setP d q).setLZ (leadingZero q)) := by
  cases h with
  | scomb d imm q ht hn hl hq =>
    have hl' := (Gfu.unequalLengths_perm hperm).symm.trans hl
    have hq' : (g'.combine g'.workingSet).toOption = some q := by rw [← Gfu.combine_perm hperm hl', hq]; rfl
    refine ⟨q, rfl, .scomb d imm q ht ((Gfu.length_workingSet_perm hperm).symm.trans hn) hl' ?_⟩
    cases hc : g'.combine g'.workingSet with
    | error i => rw [hc] at hq'; cases hq'
    | ok q' => rw [hc] at hq'; cases hq'; rfl

/-- Where SCOMB faults on one unit it faults on the other, with the same cause. -/
theorem Raises.scomb_perm {d : PReg} {imm : Byte} {cause : FaultCause} {info : Byte}
    (h : Raises Config.fieldPoly g (.scomb d imm) cause info) :
    ∃ info', Raises Config.fieldPoly g' (.scomb d imm) cause info' := by
  cases h with
  | scomb d imm h =>
    rw [Gfu.length_workingSet_perm hperm, Gfu.unequalLengths_perm hperm] at h
    exact ⟨0, .scomb d imm h⟩
  | scombZero d imm i ht hn hl h =>
    have hl' := (Gfu.unequalLengths_perm hperm).symm.trans hl
    have hq' : (g'.combine g'.workingSet).toOption = none := by rw [← Gfu.combine_perm hperm hl', h]; rfl
    cases hc : g'.combine g'.workingSet with
    | error i' => exact ⟨_, .scombZero d imm i' ht ((Gfu.length_workingSet_perm hperm).symm.trans hn) hl' hc⟩
    | ok q' => rw [hc] at hq'; cases hq'

end Perm

/-! ### The obligations -/

/-- Settles O22: the working set is the ascending list of all slot numbers, filtered. -/
theorem workingSetIsTheValidSlotsAscending : Obligations.WorkingSetIsTheValidSlotsAscending := fun g =>
  ⟨g.mem_workingSet, g.workingSet_pairwise⟩

/-- Settles O24: the denominator is a product of differences, and a product is zero when a factor is. -/
theorem zeroDenominatorMeansDuplicateIndex : Obligations.ZeroDenominatorMeansDuplicateIndex :=
  Gfu.denominator_eq_zero_iff

/-- Settles O27: the result overwrites no slot, so the same combine completes again, on registers that hold it. -/
theorem scombIsRepeatable : Obligations.ScombIsRepeatable := by
  intro d imm s t _ h ht
  obtain ⟨g, hw, rfl⟩ | ⟨cause, info, -, rfl⟩ := exec_next_cases h
  · obtain ⟨q, rfl, hw'⟩ := hw.scomb_perm (g' := g) (List.Perm.of_eq (by cases hw; rfl))
    rw [hw'.exec_eq]
    simp [Gfu.setP, Gfu.setLZ]
  · exact absurd ht (by simp)

/-- Settles O28: the combine and the coefficients are functions of the shares up to their order. -/
theorem combineIgnoresTheOrderOfShares : Obligations.CombineIgnoresTheOrderOfShares := by
  intro s s' hperm hF hF'
  refine ⟨fun d imm => ?scomb, fun d a a' ha ha' hx => ?slc⟩
  case scomb =>
    obtain ⟨g, hw, he⟩ | ⟨cause, info, hr, he⟩ := exec_cases (.scomb d imm) s
    · obtain ⟨q, rfl, hw'⟩ := hw.scomb_perm hperm
      exact ⟨_, _, he, hw'.exec_eq, hF.trans hF'.symm, fun hT => absurd (hT.symm.trans hF) (by decide),
        fun _ => ⟨by simp, rfl⟩⟩
    · obtain ⟨info', hr'⟩ := hr.scomb_perm hperm
      exact ⟨_, _, he, hr'.exec_eq, rfl, fun _ => rfl, fun hT => absurd hT (by simp)⟩
  case slc =>
    have hlc := Gfu.lagrange_perm hperm ha ha' hx
    cases h : s.gfu.lagrange s.gfu.workingSet a with
    | none =>
      exact ⟨_, _, (Raises.slcZero d a ha h).exec_eq, (Raises.slcZero d a' ha' (hlc.symm.trans h)).exec_eq, rfl,
        fun hT => absurd hT (by simp)⟩
    | some lc =>
      exact ⟨_, _, (Wrote.slc d a lc ha h).exec_eq, (Wrote.slc d a' lc ha' (hlc.symm.trans h)).exec_eq,
        hF.trans hF'.symm, fun _ => by simp⟩

end Sys2Proof.Machine
end

section
/-! The combine recovers the secret (`42_shamir.md` R154, R157): in a field that models the unit's (log entry 1), SCOMB's sum
is Lagrange's interpolation formula at 0. -/

namespace Sys2Proof.Machine

open Polynomial

section Field

variable {F : Type} [Field F] {φ : Byte → F} (hφ : ModelsField φ)

/-! ### The unit's sums, products and inverses in the field -/

section Arithmetic

include hφ

/-- Subtraction is exclusive or. -/
theorem ModelsField.map_xor_eq_sub (a b : Byte) : φ (a ^^^ b) = φ a - φ b := by
  rw [eq_sub_iff_add_eq, ← hφ.map_xor, BitVec.xor_assoc, BitVec.xor_self, BitVec.xor_zero]

theorem ModelsField.map_foldl_xor (l : List Byte) (a : Byte) : φ (l.foldl (· ^^^ ·) a) = φ a + (l.map φ).sum := by
  induction l generalizing a with
  | nil => simp
  | cons b l ih => rw [List.foldl_cons, ih, hφ.map_xor, List.map_cons, List.sum_cons, add_assoc]

theorem ModelsField.map_gfProd (l : List Byte) : φ (gfProd l) = (l.map φ).prod := by
  induction l with
  | nil => exact hφ.map_one
  | cons a l ih => rw [gfProd_cons, hφ.map_gfMul, ih, List.map_cons, List.prod_cons]

theorem ModelsField.map_gfInv {a b : Byte} (h : gfInv a = some b) : φ b = (φ a)⁻¹ := by
  obtain ⟨ha, rfl⟩ := gfInv_eq_some h
  exact eq_inv_of_mul_eq_one_right (by rw [← hφ.map_gfMul, gfMul_gfPow_254 ha, hφ.map_one])

theorem ModelsField.map_numerator (g : Gfu) {K : List SlotNum} (hK : K.Nodup) :
    φ (g.numerator K) = ∏ k ∈ K.toFinset, φ (g.getS k).x := by
  rw [g.numerator_eq_gfProd, hφ.map_gfProd, List.map_map, List.prod_toFinset _ hK]
  rfl

theorem ModelsField.map_denominator (g : Gfu) {K : List SlotNum} (hK : K.Nodup) (i : SlotNum) :
    φ (g.denominator K i) = ∏ j ∈ K.toFinset.erase i, (φ (g.getS i).x - φ (g.getS j).x) := by
  have herase : K.toFinset.erase i = (K.filter (· ≠ i)).toFinset := by
    rw [List.toFinset_filter, ← Finset.filter_ne']
    simp
  rw [g.denominator_eq_gfProd, hφ.map_gfProd, List.map_map, herase, List.prod_toFinset _ (hK.filter _)]
  refine congrArg List.prod (List.map_congr_left fun j _ => ?_)
  rw [← hφ.map_xor_eq_sub, BitVec.xor_comm]
  rfl

end Arithmetic

/-! ### A secret polynomial -/

/-- The polynomial over the field whose coefficients are listed from the constant term up, as `evalAt` reads them. -/
noncomputable def polynomialOf (φ : Byte → F) : List Byte → F[X]
  | [] => 0
  | k :: ks => C (φ k) + X * polynomialOf φ ks

theorem degree_polynomialOf_lt (ks : List Byte) : (polynomialOf φ ks).degree < ks.length := by
  rw [degree_lt_iff_coeff_zero]
  induction ks with
  | nil => simp [polynomialOf]
  | cons k ks ih =>
    intro m hm
    obtain ⟨m, rfl⟩ := Nat.exists_eq_add_of_le' (Nat.one_le_of_lt hm)
    rw [polynomialOf, coeff_add, coeff_C_succ, coeff_X_mul, ih m (by simpa using hm), add_zero]

include hφ

theorem ModelsField.eval_polynomialOf (x : Byte) (ks : List Byte) :
    (polynomialOf φ ks).eval (φ x) = φ (evalAt x ks) := by
  induction ks with
  | nil => simp [polynomialOf, evalAt, ← hφ.map_zero]
  | cons k ks ih => simp [polynomialOf, evalAt, gfAdd, hφ.map_xor, hφ.map_gfMul, ih]

theorem ModelsField.eval_zero_polynomialOf (ks : List Byte) : (polynomialOf φ ks).eval 0 = φ (ks.headD 0) := by
  cases ks with
  | nil => simp [polynomialOf, ← hφ.map_zero]
  | cons k ks => simp [polynomialOf]

/-! ### Interpolation at 0 -/

/-- Lagrange's formula at 0, with the combiner's numerator and denominators. -/
theorem ModelsField.interpolation_at_zero (g : Gfu) {K : List SlotNum} (hK : K.Nodup)
    (hx : ∀ k ∈ K, (g.getS k).x ≠ 0) (hinj : ∀ i ∈ K, ∀ j ∈ K, (g.getS i).x = (g.getS j).x → i = j) {ks : List Byte}
    (hks : ks.length ≤ K.length) :
    φ (ks.headD 0) = ∑ i ∈ K.toFinset, φ (evalAt (g.getS i).x ks) * (φ (g.getS i).x)⁻¹ *
      (φ (g.numerator K) * (φ (g.denominator K i))⁻¹) := by
  have hnodes : Set.InjOn (fun k => φ (g.getS k).x) K.toFinset := fun i hi j hj hij =>
    hinj i (List.mem_toFinset.mp hi) j (List.mem_toFinset.mp hj) (hφ.injective hij)
  have hdegree : (polynomialOf φ ks).degree < K.toFinset.card := by
    rw [List.toFinset_card_of_nodup hK]
    exact (degree_polynomialOf_lt ks).trans_le (by exact_mod_cast hks)
  have hzero : ∀ k ∈ K.toFinset, (0 : F) ≠ φ (g.getS k).x := fun k hk h0 =>
    hx k (List.mem_toFinset.mp hk) (hφ.injective (h0.symm.trans hφ.map_zero.symm))
  have hneg (x : Byte) : 0 - φ x = φ x := by
    rw [← hφ.map_zero, ← hφ.map_xor_eq_sub]
    exact congrArg φ BitVec.zero_xor
  rw [← hφ.eval_zero_polynomialOf, Lagrange.eq_interpolate hnodes hdegree,
    Lagrange.eval_interpolate_not_at_node _ hzero, Lagrange.eval_nodal, Finset.mul_sum]
  refine Finset.sum_congr rfl fun i _ => ?_
  simp only [hneg, hφ.eval_polynomialOf, Lagrange.nodalWeight, Finset.prod_inv_distrib, hφ.map_numerator g hK,
    hφ.map_denominator g hK]
  ring

end Field

/-- The combiner's sum over shares of one polynomial is its constant term. -/
theorem Gfu.sum_terms_eq_headD {g : Gfu} {K : List SlotNum} (hK : K.Nodup) (hx : ∀ k ∈ K, (g.getS k).x ≠ 0)
    (hinj : ∀ i ∈ K, ∀ j ∈ K, (g.getS i).x = (g.getS j).x → i = j) {ks : List Byte} (hks : ks.length ≤ K.length)
    {y lc : SlotNum → Byte}
    (hy : ∀ k ∈ K, ∃ b, gfInv (g.getS k).x = some b ∧ y k = gfMul (evalAt (g.getS k).x ks) b)
    (hlc : ∀ k ∈ K, ∃ b, gfInv (g.denominator K k) = some b ∧ lc k = gfMul (g.numerator K) b) :
    (K.map fun k => gfMul (y k) (lc k)).foldl (· ^^^ ·) 0 = ks.headD 0 := by
  obtain ⟨F, _, φ, hφ⟩ := exists_modelsField
  refine hφ.injective ?_
  rw [hφ.map_foldl_xor, hφ.map_zero, zero_add, hφ.interpolation_at_zero g hK hx hinj hks, List.sum_toFinset _ hK,
    List.map_map]
  refine congrArg List.sum (List.map_congr_left fun k hk => ?_)
  obtain ⟨b, hb, hyk⟩ := hy k hk
  obtain ⟨c, hc, hlck⟩ := hlc k hk
  simp only [Function.comp_apply, hyk, hlck, hφ.map_gfMul, hφ.map_gfInv hb, hφ.map_gfInv hc]

theorem Gfu.unequalLengths_eq_false {g : Gfu} {K : List SlotNum} {L : BitVec 7}
    (h : ∀ k ∈ K, (g.getS k).payload.len = L) : g.unequalLengths K = false := by
  rw [Bool.eq_false_iff, Ne, Gfu.unequalLengths_iff]
  exact fun ⟨k, hk, j, hj, hne⟩ => hne ((h k hk).trans (h j hj).symm)

/-! ### The obligation -/

/-- Settles O29: byte by byte the sum of SCOMB interpolates the secret polynomial at 0. -/
theorem combineRecoversTheSecret : Obligations.CombineRecoversTheSecret := by
  rintro d imm s K L g rfl h1 h16 hn hslots hinj hdeg hpay
  have hx k hk : (s.gfu.getS k).x ≠ 0 := (hslots k hk).2
  have hlen k hk : (s.gfu.getS k).payload.len = L := (hslots k hk).1
  have hK : s.gfu.workingSet ≠ [] := List.ne_nil_of_length_pos (by omega)
  have hl := Gfu.unequalLengths_eq_false hlen
  have hinv i hi := gfInv_of_ne Config.fieldPoly (a := s.gfu.denominator s.gfu.workingSet i) fun hD => by
    obtain ⟨j, hj, hne, hxj⟩ := (s.gfu.denominator_eq_zero_iff _ i).mp hD
    exact hne (hinj j hj i hi hxj)
  obtain ⟨q, hq, hqlen, hsum, -⟩ := Gfu.combine_ok hK hlen fun i hi => Gfu.lagrange_of_gfInv _ (hinv i hi)
  refine ⟨_, (Wrote.scomb d imm q ((legalThreshold_iff imm).mpr ⟨h1, h16⟩) hn hl hq).exec_eq, rfl, ?_⟩
  rw [Gfu.getP_setLZ, Gfu.getP_setP_same]
  refine ⟨hqlen, fun n hnL => (hsum n hnL).trans ?_⟩
  exact Gfu.sum_terms_eq_headD s.gfu.workingSet_nodup hx hinj ((hdeg n hnL).trans_eq hn.symm)
    (fun k hk => hpay k hk n hnL) fun k hk => ⟨_, hinv k hk, rfl⟩

end Sys2Proof.Machine
end

section
/-! The machine in the field of any reduction polynomial (`00_scope.md` R6, `92_eei_decisions.md` D1): what depends on the
polynomial, and that the multiplying commands compute in its field (`40_field.md` R101, R103). -/

namespace Sys2Proof.Machine

theorem exec_eq_execWith_default : exec = execWith Config.fieldPoly :=
  funext fun i => funext (exec_eq_execWith i)

/-- A command that does not multiply never sees the polynomial. -/
theorem execWith_congr (fieldPoly fieldPoly' : BitVec 9) {i : Instr} (s : State)
    (h : mnemonicOf i ∉ ["EMUL", "EINV", "PSCL", "SLC", "SCOMB"]) : execWith fieldPoly i s = execWith fieldPoly' i s := by
  cases i with
  | emul | einv | pscl | slc | scomb => exact absurd (by simp [mnemonicOf]) h
  | nop | clrf | rst | eli | eadd | pclr | psb | padd | sld | sclr => rfl

/-! ### The obligations -/

/-- Settles O54: the default machine is the one at 0x11D, and only the multiplying commands take the polynomial. -/
theorem fieldPolyIsAnArgumentWithADefault : Obligations.FieldPolyIsAnArgumentWithADefault :=
  ⟨rfl, exec_eq_execWith, fun s => by rw [step, stepWith, exec_eq_execWith_default], fun fieldPoly fieldPoly' _ s h =>
    execWith_congr fieldPoly fieldPoly' s h⟩

/-- Settles O55: each command's product is the product of its field, which is the remainder of the carry-less one. -/
theorem commandsMultiplyInTheGivenField : Obligations.CommandsMultiplyInTheGivenField := by
  intro fieldPoly hp s
  have hmul (a b : Byte) : gfMul a b fieldPoly = polyRem fieldPoly (carrylessMul a b) := gfMulBy_eq_polyRem hp a b
  refine ⟨fun d a b => ?emul, fun d a ha => ?einv, fun d a b => ?pscl, fun d a hv hD => ?slc⟩
  case emul =>
    refine ⟨_, (Wrote.emul d a b).execWith_eq, ?_, onlyE_setE s d _⟩
    rw [Gfu.getE_setE_same, hmul]
  case einv =>
    exact ⟨_, (Wrote.einv d a _ (gfInv_of_ne fieldPoly ha)).execWith_eq, s.gfu.getE_setE_same d _, onlyE_setE s d _⟩
  case pscl =>
    refine ⟨_, (Wrote.pscl d a b).execWith_eq, ?_⟩
    rw [Gfu.getP_setP_same]
    refine ⟨Poly.len_scale _ _ _, fun n hn => ?_, onlyP_setP s d _⟩
    rw [Poly.coeff_scale_of_lt _ _ _ hn, hmul]
  case slc =>
    have hlc := Gfu.lagrange_of_gfInv fieldPoly (gfInv_of_ne fieldPoly hD)
    refine ⟨_, (Wrote.slc d a _ hv hlc).execWith_eq, ?_, onlyE_setE s d _⟩
    rw [Gfu.getE_setE_same, hmul]

end Sys2Proof.Machine
end
